-- ==== Sys2Proof/Word.lean ====
section
/-! DEFINITION. The word types of the block: a device register (00_scope.md R6), a command word (30_encoding.md R70),
an address operand (30_encoding.md R80) and a byte of the register block (20_memory.md R54). -/

namespace Sys2Proof

/-- A device register, and the datum of `read` and `write`: 32 bits, unsigned (00_scope.md R6, R9). -/
abbrev Word := BitVec 32

/-- One byte of the register block seen as 28 bytes (20_memory.md R54). -/
abbrev Byte := BitVec 8

/-- The command word `CMD[63:0]` (30_encoding.md R70). -/
abbrev Command := BitVec 64

/-- The address operand: a 28-bit byte offset from the base of the block (30_encoding.md R80). -/
abbrev Addr := BitVec 28

end Sys2Proof
end

