-- ==== Sys2Proof/Syntax.lean ====
section
/-! DEFINITION. The commands, one constructor per row of spec/opcode_table.json (30_encoding.md R71), each with exactly
the operand fields R74 says it uses, at the widths of R72 and R73. -/

namespace Sys2Proof

/-- A decoded command. The handle is the binding of the command port and is not an operand (00_scope.md R12). -/
inductive Instr where
  /-- `set_baud_rate(h, baud)`: `baud` in bits per second, not a code (R75). -/
  | setBaudRate (baud : BitVec 32)
  /-- `set_parity(h, parity)`: the raw code, 0 Even, 1 Odd, 2 None; 3 can be presented (R76). -/
  | setParity (par : BitVec 2)
  /-- `enable_hw_flow_control(h, enabled)`: 1 enabled, 0 disabled (R77). -/
  | enableHwFlowControl (flow : BitVec 1)
  /-- `set_stop_bits(h, count)`: 0 to 255 can be presented (R78). -/
  | setStopBits (stop : BitVec 8)
  /-- `init_uart(h, baud, parity, hwflow, stopbits)` (41_init.md R120). -/
  | initUart (baud : BitVec 32) (par : BitVec 2) (flow : BitVec 1) (stop : BitVec 8)
  /-- `read(address) -> word` (R80). -/
  | read (addr : Addr)
  /-- `write(address, word)` (R80). -/
  | write (addr : Addr) (data : Word)
  deriving DecidableEq, Repr

end Sys2Proof
end

