-- ==== Sys2Proof/WellFormed.lean ====
section
/-! DEFINITION. Which commands can be written down. A command's text form (30_encoding.md R85) carries plain integers, and
R85 gives the range of each; a call is well formed when every integer is in its range. An `Instr` holds operands of exactly
the field widths of R72 and R73, so the call it stands for is always well formed. -/

namespace Sys2Proof

/-- A command as the host writes it, with the integers of the text form not yet cut to a field (30_encoding.md R85). -/
inductive Call where
  | setBaudRate (baud : Nat)
  | setParity (par : Nat)
  | enableHwFlowControl (flow : Nat)
  | setStopBits (count : Nat)
  | initUart (baud par flow count : Nat)
  | read (addr : Nat)
  | write (addr word : Nat)
  deriving DecidableEq, Repr

/-- Every integer of the call is in the range R85 gives it. -/
def Call.wellFormed : Call → Bool
  | .setBaudRate baud => decide (baud ≤ 4294967295)
  | .setParity par => decide (par ≤ 3)
  | .enableHwFlowControl flow => decide (flow ≤ 1)
  | .setStopBits count => decide (count ≤ 255)
  | .initUart baud par flow count =>
      decide (baud ≤ 4294967295) && decide (par ≤ 3) && decide (flow ≤ 1) && decide (count ≤ 255)
  | .read addr => decide (addr ≤ 0xFFFFFFF)
  | .write addr word => decide (addr ≤ 0xFFFFFFF) && decide (word ≤ 0xFFFFFFFF)

/-- The call a command stands for: each operand as the unsigned integer it is (30_encoding.md section 2). -/
def Instr.toCall : Instr → Call
  | .setBaudRate baud => .setBaudRate baud.toNat
  | .setParity par => .setParity par.toNat
  | .enableHwFlowControl flow => .enableHwFlowControl flow.toNat
  | .setStopBits stop => .setStopBits stop.toNat
  | .initUart baud par flow stop => .initUart baud.toNat par.toNat flow.toNat stop.toNat
  | .read addr => .read addr.toNat
  | .write addr data => .write addr.toNat data.toNat

/-- A command is well formed when its call is. -/
def Instr.wellFormed (i : Instr) : Bool := i.toCall.wellFormed

end Sys2Proof
end

