-- ==== Sys2Proof/Decode.lean ====
section
/-! DEFINITION. The decoder, total on all 2^64 command words (30_encoding.md R83, R84), and the encoder written from the
two formats (R72, R73). Both take the encoding from R71 and R74. -/

namespace Sys2Proof

/-! ## The fields of a command word (R72, R73) -/

/-- `op`, bits [63:60]. -/
def opField (w : Command) : BitVec 4 := w.extractLsb' 60 4

/-- `mbz2`, bits [59:48] of format F. -/
def mbz2Field (w : Command) : BitVec 12 := w.extractLsb' 48 12

/-- `stop`, bits [47:40] of format F. -/
def stopField (w : Command) : BitVec 8 := w.extractLsb' 40 8

/-- `mbz1`, bits [39:35] of format F. -/
def mbz1Field (w : Command) : BitVec 5 := w.extractLsb' 35 5

/-- `flow`, bit [34] of format F. -/
def flowField (w : Command) : BitVec 1 := w.extractLsb' 34 1

/-- `par`, bits [33:32] of format F. -/
def parField (w : Command) : BitVec 2 := w.extractLsb' 32 2

/-- `baud`, bits [31:0] of format F. -/
def baudField (w : Command) : BitVec 32 := w.extractLsb' 0 32

/-- `addr`, bits [59:32] of format A. -/
def addrField (w : Command) : Addr := w.extractLsb' 32 28

/-- `data`, bits [31:0] of format A. -/
def dataField (w : Command) : Word := w.extractLsb' 0 32

/-! ## The match and mask table (R74) -/

/-- One row of the table of R74: a word `w` is the command when `w & mask == fixed` (the spec's `match`). -/
structure Pattern where
  fixed : Command
  mask : Command
  deriving DecidableEq, Repr

/-- `w & mask == match` (R74). -/
def Pattern.hits (p : Pattern) (w : Command) : Bool := decide (w &&& p.mask = p.fixed)

def setBaudRatePattern : Pattern := ⟨0x1000000000000000, 0xFFFFFFFF00000000⟩
def setParityPattern : Pattern := ⟨0x2000000000000000, 0xFFFFFFFCFFFFFFFF⟩
def enableHwFlowControlPattern : Pattern := ⟨0x3000000000000000, 0xFFFFFFFBFFFFFFFF⟩
def setStopBitsPattern : Pattern := ⟨0x4000000000000000, 0xFFFF00FFFFFFFFFF⟩
def initUartPattern : Pattern := ⟨0x5000000000000000, 0xFFFF00F800000000⟩
def readPattern : Pattern := ⟨0x6000000000000000, 0xF0000000FFFFFFFF⟩
def writePattern : Pattern := ⟨0x7000000000000000, 0xF000000000000000⟩

/-- The seven rows of R74, in order. -/
def patterns : List Pattern :=
  [setBaudRatePattern, setParityPattern, enableHwFlowControlPattern, setStopBitsPattern, initUartPattern, readPattern,
    writePattern]

/-- The row of R74 that belongs to a command. -/
def Instr.pattern : Instr → Pattern
  | .setBaudRate _ => setBaudRatePattern
  | .setParity _ => setParityPattern
  | .enableHwFlowControl _ => enableHwFlowControlPattern
  | .setStopBits _ => setStopBitsPattern
  | .initUart _ _ _ _ => initUartPattern
  | .read _ => readPattern
  | .write _ _ => writePattern

/-! ## Decoding (R84) -/

/-- Why a word is illegal. Both reasons end in the one error `IllegalCommand` (60_exceptions.md R148). -/
inductive IllegalReason where
  /-- `op` is 0x0 or 0x8 to 0xF (R81). -/
  | opcode
  /-- `op` is 0x1 to 0x7 and a must-be-zero bit is set (R82). -/
  | mustBeZero
  deriving DecidableEq, Repr

/-- What decoding a word gives: one of the seven commands, or Illegal (R84). -/
inductive Decoded where
  | command (i : Instr)
  | illegal (why : IllegalReason)
  deriving DecidableEq, Repr

/-- The reason a word that hits no row is illegal: its opcode has no command, or has one whose zero fields are not zero
(R81, R82). -/
def illegalReason (w : Command) : IllegalReason :=
  if opField w = 0 ∨ 8 ≤ opField w then .opcode else .mustBeZero

/-- `decode(CMD)` of R84: the first row hit gives the command, its operands cut by R72 or R73. It reads no state. -/
def decode (w : Command) : Decoded :=
  if setBaudRatePattern.hits w then .command (.setBaudRate (baudField w))
  else if setParityPattern.hits w then .command (.setParity (parField w))
  else if enableHwFlowControlPattern.hits w then .command (.enableHwFlowControl (flowField w))
  else if setStopBitsPattern.hits w then .command (.setStopBits (stopField w))
  else if initUartPattern.hits w then
    .command (.initUart (baudField w) (parField w) (flowField w) (stopField w))
  else if readPattern.hits w then .command (.read (addrField w))
  else if writePattern.hits w then .command (.write (addrField w) (dataField w))
  else .illegal (illegalReason w)

/-! ## Encoding (R72, R73) -/

/-- Format F: `CMD = {op, 12'b0, stop, 5'b0, flow, par, baud}` (R72). -/
def formatF (op : BitVec 4) (stop : BitVec 8) (flow : BitVec 1) (par : BitVec 2) (baud : BitVec 32) : Command :=
  op ++ 0#12 ++ stop ++ 0#5 ++ flow ++ par ++ baud

/-- Format A: `CMD = {op, addr, data}` (R73). -/
def formatA (op : BitVec 4) (addr : Addr) (data : Word) : Command := op ++ addr ++ data

/-- The opcode of a command (R71). -/
def Instr.opcode : Instr → BitVec 4
  | .setBaudRate _ => 0x1
  | .setParity _ => 0x2
  | .enableHwFlowControl _ => 0x3
  | .setStopBits _ => 0x4
  | .initUart _ _ _ _ => 0x5
  | .read _ => 0x6
  | .write _ _ => 0x7

/-- The word of a command: its operands in their fields, every field it does not use zero (R74). -/
def encode : Instr → Command
  | .setBaudRate baud => formatF 0x1 0 0 0 baud
  | .setParity par => formatF 0x2 0 0 par 0
  | .enableHwFlowControl flow => formatF 0x3 0 flow 0 0
  | .setStopBits stop => formatF 0x4 stop 0 0 0
  | .initUart baud par flow stop => formatF 0x5 stop flow par baud
  | .read addr => formatA 0x6 addr 0
  | .write addr data => formatA 0x7 addr data

/-! ## The host's numbering of a table row -/

/-- The command word whose low `nbits` bits are `w` and whose other bits are zero. A command is one 64-bit word that is
never stored in the register block (20_memory.md R61), so its bits are numbered as the table numbers them and no byte order
enters. Log entry 9. -/
def tableWord (nbits w : Nat) : Command := BitVec.ofNat 64 (w % 2 ^ nbits)

/-- The command the decoder reads from a table row's word. -/
def decodeTableWord (nbits w : Nat) : Option Instr :=
  match decode (tableWord nbits w) with
  | .command i => some i
  | .illegal _ => none

end Sys2Proof
end

