-- ==== Sys2Proof/Config.lean ====
section
/-! DEFINITION. The two parameters the spec leaves open (00_scope.md R7), as constants without a body: nothing in Lean
can evaluate them or prove a value of them, so a theorem that names them holds for every value. -/

namespace Sys2Proof

/-- `RESET_IMAGE`: the contents of the register block after reset, seven words in offset order
(70_reset_and_hazards.md R170, decision D11). Log entry 3. -/
opaque Config.resetImage : Vector Word 7

/-- `BASE`: the absolute address at which the platform places offset 0x00 (00_scope.md R7, decision D18). "no rule of
this spec reads it", and nothing in the model does. Log entry 4. -/
opaque Config.base : Nat

end Sys2Proof
end

