-- ==== Sys2Proof/Machine/State.lean ====
section
/-! DEFINITION. The state of the block, the eight components of 10_state.md R22 and no more (`Block`); and what a run needs beside
it, the host's side of the command and response ports (`HostSide`), which is no state of the block (R41; log entry 1). -/

namespace Sys2Proof.Machine

/-- The names of the seven device registers, in offset order (10_state.md R23). -/
inductive Reg where
  | rsvd0 | brr | ter | rer | ier | tdr | rdr
  deriving DecidableEq, Repr

/-- The register block: seven 32-bit registers, 224 bits, the whole memory of the block (10_state.md R22 (a); log entry 5). -/
structure RegBlock where
  /-- offset 0x00, the reserved word, plain storage (R37) -/
  rsvd0 : Word
  /-- offset 0x04, baud rate (configuration) register (R24) -/
  brr : Word
  /-- offset 0x08, transmit-enable register (R32) -/
  ter : Word
  /-- offset 0x0C, receive-error register (R33) -/
  rer : Word
  /-- offset 0x10, interrupt-enable register (R34) -/
  ier : Word
  /-- offset 0x14, transmit data register (R35) -/
  tdr : Word
  /-- offset 0x18, receive data register (R36) -/
  rdr : Word
  deriving DecidableEq, Repr

/-- The six errors of 60_exceptions.md R141. -/
inductive CommandError where
  /-- `baud` is not one of the nine rates (R142) -/
  | unsupportedBaudRate
  /-- `par` = 3 (R143) -/
  | invalidParityCode
  /-- in the taxonomy, raised by no command (R144) -/
  | invalidStopBitCount
  /-- `stop` > 15 (R145) -/
  | invalidFieldValue
  /-- the address is not one of the seven word offsets (R146) -/
  | invalidAddress
  /-- the word decodes to no command (R148) -/
  | illegalCommand
  deriving DecidableEq, Repr

/-- The status of a response: seven values (R141; 93_implementation_defined.md U15). -/
inductive Status where
  | ok
  | error (e : CommandError)
  deriving DecidableEq, Repr

/-- The response `RSP = (status, data)` that ends every command (30_encoding.md R79). -/
structure Response where
  status : Status
  data : Word
  deriving DecidableEq, Repr

/-- The complete state of the block: (a) the register block, seven 32-bit registers, and (b) the lifecycle bit; "Nothing else is
state" (10_state.md R22). It holds no command word, no response and no error (R41). -/
structure Block where
  /-- (a) the register block -/
  regs : RegBlock
  /-- (b) the lifecycle bit: false *unconfigured*, true *configured* (R38) -/
  configured : Bool
  deriving DecidableEq, Repr

/-- The host's side of the two ports (60_exceptions.md R158: the one other agent). No storage of the block: the host has the
words it will present, and the answer it was given, as 10_state.md R41 gives the failure "to the caller as a return value". -/
structure HostSide where
  /-- the command words the host has still to present, the next one first -/
  commands : List Command
  /-- the response handed to the host by the last step, none if that step executed no command -/
  response : Option Response
  deriving DecidableEq, Repr

/-- What a step takes and gives: the block, and the host that drives it. -/
structure State extends Block, HostSide
  deriving DecidableEq, Repr

/-- What stops the machine: nothing. "The block never hangs, stalls or becomes unusable" (60_exceptions.md R159); an error
is a result, not a stop (R140). So this type has no constructor, no meaning can answer a fault, and that is safe: the
spec names none. Log entry 10. -/
inductive Fault where
  deriving DecidableEq, Repr

/-- What the model gives no meaning. -/
inductive Refusal where
  /-- An instruction whose meaning is not written, by its mnemonic; raised only by an arm of `exec`. No arm uses it: every
  command has its meaning. Safe: the model would stop where the hardware goes on. -/
  | notModelled (mnemonic : String)
  deriving DecidableEq, Repr

/-- The machine right after reset on a block whose registers hold `image`: the registers take the seven words in offset
order (70_reset_and_hazards.md R170), `configured` is 0 (R171), no command is in flight and no response pending (R172), so the
host's side is empty. -/
def State.resetWith (image : Vector Word 7) : State where
  regs :=
    { rsvd0 := image[0], brr := image[1], ter := image[2], rer := image[3], ier := image[4], tdr := image[5],
      rdr := image[6] }
  configured := false
  commands := []
  response := none

/-- The machine right after reset: `RESET_IMAGE` is the open parameter of R170. Log entry 3. -/
def State.reset : State := State.resetWith Config.resetImage

end Sys2Proof.Machine
end

