-- ==== Sys2Proof/Machine/Flags.lean ====
section
/-! DEFINITION. The named bits of the registers. The block has no condition codes (10_state.md R42): the only bits the
source calls flags are RER.ORER and RER.FER, and they are register storage. -/

namespace Sys2Proof.Machine

/-! ## The fields of BRR (10_state.md R24) -/

def baudMask : Word := 0x0000000F
def parityMask : Word := 0x00000030
def flowMask : Word := 0x00000100
def stopMask : Word := 0x0000F000

def baudPos : Nat := 0
def parityPos : Nat := 4
def flowPos : Nat := 8
def stopPos : Nat := 12

/-- The image of a field value: zero-extended to 32 bits, shifted to the field's position (40_field_setters.md R100, R101). -/
def fieldImage {n : Nat} (v : BitVec n) (pos : Nat) : Word := v.setWidth 32 <<< pos

/-- Mask-clear-then-set: `(old & ~M) | image` (R100). -/
def maskClearThenSet (old mask image : Word) : Word := (old &&& ~~~mask) ||| image

/-! ## The named bits of TER, RER and IER (10_state.md R32, R33, R34) -/

/-- `TER.TE`, bit 23, transmit enable. -/
def terTE : Word := 0x00800000

/-- `RER.ORER`, bit 3, overrun error flag, and `RER.FER`, bit 5, framing error flag. -/
def rerErr : Word := 0x00000028

/-- `IER.TXIE`, bit 14, and `IER.RXIE`, bit 15. Nothing in the block reads them (60_exceptions.md R152). -/
def ierEn : Word := 0x0000C000

end Sys2Proof.Machine
end

