-- ==== Sys2Proof/Machine/Operands.lean ====
section
/-! DEFINITION. What the operands of a command stand for: the baud rate table (10_state.md R27), the parity and stop-count
checks (60_exceptions.md R143, R145), the seven offsets and the address check (20_memory.md R51, R53). Every operand is one
contiguous unsigned field used at its own width (30_encoding.md section 2), so there is nothing else to assemble. -/

namespace Sys2Proof.Machine

/-- The Baud Rate Table: rate in bits per second, 4-bit code (10_state.md R27). -/
def baudTable : List (BitVec 32 × BitVec 4) :=
  [(4800, 0), (9600, 1), (14400, 2), (19200, 3), (38400, 4), (57600, 5), (115200, 6), (128000, 7), (256000, 8)]

/-- `baud_code(b)`: exact equality with one of the nine rates, or none (R27, decision D21). -/
def baudCode (b : BitVec 32) : Option (BitVec 4) := baudTable.lookup b

/-- The parity operand is one of Even, Odd, None (10_state.md R28; 60_exceptions.md R143). -/
def parityOk (par : BitVec 2) : Bool := decide (par ≠ 3#2)

/-- The stop count fits its 4-bit field (60_exceptions.md R145). -/
def stopOk (stop : BitVec 8) : Bool := decide (stop ≤ 15#8)

/-- The seven registers in offset order. -/
def allRegs : List Reg := [.rsvd0, .brr, .ter, .rer, .ier, .tdr, .rdr]

/-- The byte offset of a register (10_state.md R23; 20_memory.md R51). -/
def Reg.offset : Reg → Nat
  | .rsvd0 => 0x00
  | .brr => 0x04
  | .ter => 0x08
  | .rer => 0x0C
  | .ier => 0x10
  | .tdr => 0x14
  | .rdr => 0x18

/-- The register an address operand names, none when the address is not one of the seven word offsets: no rounding, no
splitting, no wrap (20_memory.md R53). -/
def regAt (a : Addr) : Option Reg := allRegs.find? fun r => r.offset == a.toNat

end Sys2Proof.Machine
end

