-- ==== Sys2Proof/Machine/Ops.lean ====
section
/-! DEFINITION. The operations all commands share: the access layer's two primitives over a substitutable storage
(20_memory.md R52 to R58), the accesses a command makes and the trace they leave, ending a command with a response, raising
an error (the block's whole exception mechanism, 60_exceptions.md R140 and R150; there is no return from one, R151), and
taking a command from the port. -/

namespace Sys2Proof.Machine

/-! ## The register block as storage -/

/-- The 32-bit value of a register: `MemRead(off, 4)` (00_scope.md R10). It changes nothing (20_memory.md R55). -/
def RegBlock.get (b : RegBlock) : Reg → Word
  | .rsvd0 => b.rsvd0
  | .brr => b.brr
  | .ter => b.ter
  | .rer => b.rer
  | .ier => b.ier
  | .tdr => b.tdr
  | .rdr => b.rdr

/-- A register takes all 32 bits given, and no other register changes: `MemWrite(off, 4, v)` (00_scope.md R10;
10_state.md R39). -/
def RegBlock.set (b : RegBlock) (r : Reg) (v : Word) : RegBlock :=
  match r with
  | .rsvd0 => { b with rsvd0 := v }
  | .brr => { b with brr := v }
  | .ter => { b with ter := v }
  | .rer => { b with rer := v }
  | .ier => { b with ier := v }
  | .tdr => { b with tdr := v }
  | .rdr => { b with rdr := v }

/-- The block seen as bytes, little-endian: byte `a` of the 28, none at 0x1C and above (20_memory.md R51, R54). No command
can see it; it serves a platform that looks at the store by another road. -/
def RegBlock.byteAt (b : RegBlock) (a : Nat) : Option Byte :=
  (allRegs.find? fun r => r.offset == a / 4 * 4).map fun r => (b.get r).extractLsb' (8 * (a % 4)) 8

/-- One byte of the block of a state (20_memory.md R54). -/
def State.byteAt (s : State) (a : Nat) : Option Byte := s.regs.byteAt a

/-! ## The substitutable storage (20_memory.md R58) -/

/-- The replaceable function pair of the access layer: `read(address) -> word`, `write(address, word)`. -/
structure Backing (σ : Type) where
  memRead : σ → Reg → Word
  memWrite : σ → Reg → Word → σ

/-- The storage the machine runs on: the register block of State. -/
def registerBacking : Backing RegBlock := ⟨RegBlock.get, RegBlock.set⟩

/-! ## The accesses of a command -/

/-- One line of a command's pseudocode, with its operands already checked. -/
inductive Access where
  /-- `v <- MemRead(r)`, and `v` is the data of the response (42_access.md R130). -/
  | load (r : Reg)
  /-- `MemWrite(r, v)` (42_access.md R131; 41_init.md R121, R122). -/
  | store (r : Reg) (v : Word)
  /-- `old <- MemRead(r); MemWrite(r, (old & ~mask) | image)` (40_field_setters.md R100). -/
  | setField (r : Reg) (mask image : Word)
  /-- `t <- MemRead(r); MemWrite(r, t | bits)` (41_init.md R122). -/
  | setBits (r : Reg) (bits : Word)
  /-- `t <- MemRead(r); MemWrite(r, t & ~bits)` (41_init.md R122). -/
  | clearBits (r : Reg) (bits : Word)
  deriving DecidableEq, Repr

/-- One access to the storage, as a test double would record it (41_init.md R123). -/
inductive BusEvent where
  | read (r : Reg) (v : Word)
  | write (r : Reg) (v : Word)
  deriving DecidableEq, Repr

/-- The storage and the response data so far. -/
abbrev Progress (σ : Type) := σ × Word

/-- Make one access. -/
def Access.apply {σ : Type} (B : Backing σ) (a : Access) (m : Progress σ) : Progress σ :=
  match a with
  | .load r => (m.1, B.memRead m.1 r)
  | .store r v => (B.memWrite m.1 r v, m.2)
  | .setField r mask image => (B.memWrite m.1 r (maskClearThenSet (B.memRead m.1 r) mask image), m.2)
  | .setBits r bits => (B.memWrite m.1 r (B.memRead m.1 r ||| bits), m.2)
  | .clearBits r bits => (B.memWrite m.1 r (B.memRead m.1 r &&& ~~~bits), m.2)

/-- What the access does on the bus, in order. -/
def Access.events {σ : Type} (B : Backing σ) (a : Access) (m : σ) : List BusEvent :=
  match a with
  | .load r => [.read r (B.memRead m r)]
  | .store r v => [.write r v]
  | .setField r mask image =>
      [.read r (B.memRead m r), .write r (maskClearThenSet (B.memRead m r) mask image)]
  | .setBits r bits => [.read r (B.memRead m r), .write r (B.memRead m r ||| bits)]
  | .clearBits r bits => [.read r (B.memRead m r), .write r (B.memRead m r &&& ~~~bits)]

/-- Make the accesses one after the other, in pseudocode order (20_memory.md R59). -/
def runAccesses {σ : Type} (B : Backing σ) : List Access → Progress σ → Progress σ
  | [], m => m
  | a :: rest, m => runAccesses B rest (a.apply B m)

/-- The trace of the accesses. It is no state: the machine does not keep it (10_state.md R22). -/
def traceAccesses {σ : Type} (B : Backing σ) : List Access → Progress σ → List BusEvent
  | [], _ => []
  | a :: rest, m => a.events B m.1 ++ traceAccesses B rest (a.apply B m)

/-! ## Ending a command

A command acts on the block and gives the block after it and the response, which leaves the block as an output
(30_encoding.md R79; 10_state.md R41). Nothing here can see or change the host's side. -/

/-- `respond(status, data)`: the command ends with that response (30_encoding.md R79). -/
def respond (status : Status) (data : Word) (b : Block) : Response × Block := (⟨status, data⟩, b)

/-- `raise <Error>`: the command ends at once with the response (code, 0). It saves nothing, changes no mode, jumps
nowhere, and the block is as it was (60_exceptions.md R140, R147, R150). -/
def raiseError (e : CommandError) (b : Block) : Response × Block := respond (.error e) 0 b

/-- What a command is to do, decided from its operands alone before any access (60_exceptions.md R147, R153): be refused,
or make these accesses and answer OK. -/
inductive Plan where
  | refuse (e : CommandError)
  | run (accesses : List Access)
  deriving DecidableEq, Repr

/-- Carry out a plan on the block. `finish` is what completion does beside the accesses: nothing, or for `init_uart` setting
`configured` (41_init.md R124). The response data is the word loaded, 0 where none is (30_encoding.md R79). -/
def Plan.carryOut (finish : Block → Block) (p : Plan) (b : Block) : Response × Block :=
  match p with
  | .refuse e => raiseError e b
  | .run accesses =>
      let m := runAccesses registerBacking accesses (b.regs, 0)
      respond .ok m.2 (finish { b with regs := m.1 })

/-- The response is handed to the host; the block goes on as the command left it. -/
def handOver (r : Response × Block) (s : State) : Host.Outcome State Fault Refusal :=
  .next { s with toBlock := r.2, response := some r.1 }

/-- Carry out a plan on the block of a state and hand over the response. -/
def perform (finish : Block → Block) (p : Plan) (s : State) : Host.Outcome State Fault Refusal :=
  handOver (p.carryOut finish s.toBlock) s

/-- The trace a plan leaves on a storage: nothing at all when it is refused (40_field_setters.md R102). -/
def Plan.trace {σ : Type} (B : Backing σ) (m : σ) : Plan → List BusEvent
  | .refuse _ => []
  | .run accesses => traceAccesses B accesses (m, 0)

/-- Completion that changes nothing more. -/
def stayAsConfigured (b : Block) : Block := b

/-- `configured <- 1`, the only place it is written (41_init.md R124). -/
def becomeConfigured (b : Block) : Block := { b with configured := true }

/-! ## The response as bits (30_encoding.md R79; 60_exceptions.md R141) -/

/-- The code of an error. -/
def CommandError.code : CommandError → BitVec 4
  | .unsupportedBaudRate => 0x1
  | .invalidParityCode => 0x2
  | .invalidStopBitCount => 0x3
  | .invalidFieldValue => 0x4
  | .invalidAddress => 0x5
  | .illegalCommand => 0x6

/-- The 4-bit status. -/
def Status.code : Status → BitVec 4
  | .ok => 0x0
  | .error e => e.code

/-- `RSP = {status[3:0], data[31:0]}`, 36 bits. -/
def Response.bits (r : Response) : BitVec 36 := r.status.code ++ r.data

/-! ## The command port -/

/-- Take the command the host presents, if there is one (30_encoding.md R70). -/
def takeCommand (s : State) : Option (Command × State) :=
  match s.commands with
  | [] => none
  | w :: rest => some (w, { s with commands := rest })

/-- No command is presented: nothing but a command changes the block (20_memory.md R62), and there is no response. Log
entry 2. -/
def idle (s : State) : Host.Outcome State Fault Refusal := .next { s with response := none }

/-- A word that decodes to no command: `IllegalCommand`, no access, no change (30_encoding.md R81, R82; 60_exceptions.md
R148). Both reasons have the one code. -/
def illegalWord (_ : IllegalReason) (s : State) : Host.Outcome State Fault Refusal :=
  handOver (raiseError .illegalCommand s.toBlock) s

/-- The host presents `w` before the commands it had still to present. -/
def presentCommand (s : State) (w : Command) : State := { s with commands := w :: s.commands }

end Sys2Proof.Machine
end

