-- ==== Sys2Proof/Machine/AccessLayer.lean ====
section
/-! DEFINITION. The access layer commands `read` and `write` (42_access.md): one addressing mode, one width, an address
check in front of the access. -/

namespace Sys2Proof.Machine

/-- R130: refuse an address that is not one of the seven offsets, else read the register. -/
def readPlan (addr : Addr) : Plan :=
  match regAt addr with
  | none => .refuse .invalidAddress
  | some r => .run [.load r]

/-- R131: refuse an address that is not one of the seven offsets, else replace the register. -/
def writePlan (addr : Addr) (data : Word) : Plan :=
  match regAt addr with
  | none => .refuse .invalidAddress
  | some r => .run [.store r data]

/-- `read` (R130). -/
def execRead (addr : Addr) (s : State) : Host.Outcome State Fault Refusal :=
  perform stayAsConfigured (readPlan addr) s

/-- `write` (R131). -/
def execWrite (addr : Addr) (data : Word) (s : State) : Host.Outcome State Fault Refusal :=
  perform stayAsConfigured (writePlan addr data) s

end Sys2Proof.Machine
end

