-- ==== Sys2Proof/Machine/Init.lean ====
section
/-! DEFINITION. The command `init_uart` (41_init.md). -/

namespace Sys2Proof.Machine

/-- The seventeen accesses of a successful `init_uart`, in the order of R123: the BRR part (R121), then TER, IER, RER, TDR,
RDR (R122). -/
def initUartAccesses (code : BitVec 4) (par : BitVec 2) (flow : BitVec 1) (stop : BitVec 8) : List Access :=
  [.store .brr 0,
   .setField .brr baudMask (fieldImage code baudPos),
   .setField .brr parityMask (fieldImage par parityPos),
   .setField .brr flowMask (fieldImage flow flowPos),
   .setField .brr stopMask (fieldImage stop stopPos),
   .setBits .ter terTE,
   .setBits .ier ierEn,
   .clearBits .rer rerErr,
   .store .tdr 0,
   .store .rdr 0]

/-- R120: all operands are validated, in the order baud, parity, stop count (60_exceptions.md R149), before any access. -/
def initUartPlan (baud : BitVec 32) (par : BitVec 2) (flow : BitVec 1) (stop : BitVec 8) : Plan :=
  match baudCode baud with
  | none => .refuse .unsupportedBaudRate
  | some c =>
      if !parityOk par then .refuse .invalidParityCode
      else if !stopOk stop then .refuse .invalidFieldValue
      else .run (initUartAccesses c par flow stop)

/-- `init_uart`: the accesses, then `configured <- 1`, then the response (R120 to R124). -/
def execInitUart (baud : BitVec 32) (par : BitVec 2) (flow : BitVec 1) (stop : BitVec 8) (s : State) :
    Host.Outcome State Fault Refusal :=
  perform becomeConfigured (initUartPlan baud par flow stop) s

end Sys2Proof.Machine
end

