-- ==== Sys2Proof/Machine/Setters.lean ====
section
/-! DEFINITION. The four field setters of BRR (40_field_setters.md). Each checks its operand, then makes one read and one
write of BRR (R100, R102), and leaves everything else alone (R109). -/

namespace Sys2Proof.Machine

/-- R103: look up the rate, refuse an unsupported one, else BRR.BAUD takes the code. -/
def setBaudRatePlan (baud : BitVec 32) : Plan :=
  match baudCode baud with
  | none => .refuse .unsupportedBaudRate
  | some c => .run [.setField .brr baudMask (fieldImage c baudPos)]

/-- R104: refuse code 3, else BRR.PARITY takes the code. -/
def setParityPlan (par : BitVec 2) : Plan :=
  if parityOk par then .run [.setField .brr parityMask (fieldImage par parityPos)]
  else .refuse .invalidParityCode

/-- R105: BRR.FLOW takes the bit. The operand cannot be out of range. -/
def enableHwFlowControlPlan (flow : BitVec 1) : Plan :=
  .run [.setField .brr flowMask (fieldImage flow flowPos)]

/-- R106: refuse a count above 15, else BRR.STOP takes the count. -/
def setStopBitsPlan (stop : BitVec 8) : Plan :=
  if stopOk stop then .run [.setField .brr stopMask (fieldImage stop stopPos)]
  else .refuse .invalidFieldValue

/-- `set_baud_rate` (R103). -/
def execSetBaudRate (baud : BitVec 32) (s : State) : Host.Outcome State Fault Refusal :=
  perform stayAsConfigured (setBaudRatePlan baud) s

/-- `set_parity` (R104). -/
def execSetParity (par : BitVec 2) (s : State) : Host.Outcome State Fault Refusal :=
  perform stayAsConfigured (setParityPlan par) s

/-- `enable_hw_flow_control` (R105). -/
def execEnableHwFlowControl (flow : BitVec 1) (s : State) : Host.Outcome State Fault Refusal :=
  perform stayAsConfigured (enableHwFlowControlPlan flow) s

/-- `set_stop_bits` (R106). -/
def execSetStopBits (stop : BitVec 8) (s : State) : Host.Outcome State Fault Refusal :=
  perform stayAsConfigured (setStopBitsPlan stop) s

end Sys2Proof.Machine
end

