-- ==== Sys2Proof/Machine/Dispatch.lean ====
section
/-! DEFINITION. One arm per command (30_encoding.md R71). -/

namespace Sys2Proof.Machine

def exec (i : Instr) (s : State) : Host.Outcome State Fault Refusal :=
  match i with
  | .setBaudRate baud => Sys2Proof.Machine.execSetBaudRate baud s
  | .setParity par => Sys2Proof.Machine.execSetParity par s
  | .enableHwFlowControl flow => Sys2Proof.Machine.execEnableHwFlowControl flow s
  | .setStopBits stop => Sys2Proof.Machine.execSetStopBits stop s
  | .initUart baud par flow stop => Sys2Proof.Machine.execInitUart baud par flow stop s
  | .read addr => Sys2Proof.Machine.execRead addr s
  | .write addr data => Sys2Proof.Machine.execWrite addr data s

end Sys2Proof.Machine
end

