-- ==== Sys2Proof/Machine/Step.lean ====
section
/-! DEFINITION. One step: the host presents its next command, the block decodes it before anything else and executes it
whole (00_scope.md R11; 30_encoding.md R84; 70_reset_and_hazards.md R180). -/

namespace Sys2Proof.Machine

/-- One command, one step. With no command presented the block stays as it is. -/
def step (s : State) : Host.Outcome State Fault Refusal :=
  match takeCommand s with
  | none => idle s
  | some (w, t) =>
      match decode w with
      | .command i => exec i t
      | .illegal why => illegalWord why t

/-- The table row's word presented as the next command. Log entry 7 says how a program comes to run from reset. -/
def State.withFetchWord (s : State) (nbits w : Nat) : State := presentCommand s (tableWord nbits w)

end Sys2Proof.Machine
end

