-- ==== Sys2Proof/Machine/Assembler.lean ====
section
/-! DEFINITION. The text form of a command (30_encoding.md R85): the document's function-call form, with the handle written
`h`, to one command (R86: no pseudo-commands). Text is a list of characters. Spaces may stand between the parts, and
`integer` means decimal or 0x-hexadecimal everywhere: log entry 8. -/

namespace Sys2Proof.Machine

/-- The command a call stands for: each integer cut to its field. -/
def callInstr : Call → Instr
  | .setBaudRate baud => .setBaudRate (BitVec.ofNat 32 baud)
  | .setParity par => .setParity (BitVec.ofNat 2 par)
  | .enableHwFlowControl flow => .enableHwFlowControl (BitVec.ofNat 1 flow)
  | .setStopBits count => .setStopBits (BitVec.ofNat 8 count)
  | .initUart baud par flow count =>
      .initUart (BitVec.ofNat 32 baud) (BitVec.ofNat 2 par) (BitVec.ofNat 1 flow) (BitVec.ofNat 8 count)
  | .read addr => .read (BitVec.ofNat 28 addr)
  | .write addr word => .write (BitVec.ofNat 28 addr) (BitVec.ofNat 32 word)

/-- The command of a well-formed call; a call with an integer outside its range stands for none. -/
def assemble (c : Call) : Option Instr := if c.wellFormed then some (callInstr c) else none

/-- A part of the text: a run of letters, digits and underscores, or one of the marks ( , ). -/
inductive Token where
  | word (cs : List Char)
  | mark (c : Char)
  deriving DecidableEq, Repr

/-- Close the run of characters collected so far (kept in reverse). -/
def closeWord : List Char → List Token → List Token
  | [], ts => ts
  | c :: cs, ts => .word (c :: cs).reverse :: ts

/-- The parts of a text, from left to right; `acc` is the run being collected, in reverse. -/
def tokenize : List Char → List Char → List Token
  | [], acc => closeWord acc []
  | c :: rest, acc =>
      if c = ' ' then closeWord acc (tokenize rest [])
      else if c = '(' ∨ c = ')' ∨ c = ',' then closeWord acc (.mark c :: tokenize rest [])
      else tokenize rest (c :: acc)

/-- A digit's value in the base, if it is one. -/
def digitValue (base : Nat) (c : Char) : Option Nat :=
  let n := c.toNat
  let v :=
    if 48 ≤ n ∧ n ≤ 57 then n - 48
    else if 65 ≤ n ∧ n ≤ 70 then n - 55
    else if 97 ≤ n ∧ n ≤ 102 then n - 87
    else base
  if v < base then some v else none

/-- The value of a run of digits after the value `acc` of those before. -/
def digitsValue (base : Nat) : List Char → Nat → Option Nat
  | [], acc => some acc
  | c :: rest, acc =>
      match digitValue base c with
      | some d => digitsValue base rest (acc * base + d)
      | none => none

/-- A decimal or 0x-hexadecimal integer. -/
def integer : List Char → Option Nat
  | [] => none
  | '0' :: 'x' :: d :: ds => digitsValue 16 (d :: ds) 0
  | cs => digitsValue 10 cs 0

/-- A name from a table, else an integer. -/
def nameOrInteger (names : List (List Char × Nat)) (cs : List Char) : Option Nat :=
  match names.lookup cs with
  | some n => some n
  | none => integer cs

/-- `Even`, `Odd`, `None` (10_state.md R28). -/
def parityNames : List (List Char × Nat) := [("Even".toList, 0), ("Odd".toList, 1), ("None".toList, 2)]

/-- `enabled`, also `true`, `ENABLE`, 1; `disabled`, also `false`, 0. No other spelling is a flow operand. -/
def flowNames : List (List Char × Nat) :=
  [("enabled".toList, 1), ("true".toList, 1), ("ENABLE".toList, 1), ("1".toList, 1),
    ("disabled".toList, 0), ("false".toList, 0), ("0".toList, 0)]

/-- A register name stands for its offset. -/
def regNames : List (List Char × Nat) :=
  [("RSVD0".toList, Reg.rsvd0.offset), ("BRR".toList, Reg.brr.offset), ("TER".toList, Reg.ter.offset),
    ("RER".toList, Reg.rer.offset), ("IER".toList, Reg.ier.offset), ("TDR".toList, Reg.tdr.offset),
    ("RDR".toList, Reg.rdr.offset)]

/-- The call a name and its operand texts make. -/
def callOf (name : List Char) (args : List (List Char)) : Option Call :=
  match args with
  | [a] =>
      if name = "set_baud_rate".toList then (integer a).map Call.setBaudRate
      else if name = "set_parity".toList then (nameOrInteger parityNames a).map Call.setParity
      else if name = "enable_hw_flow_control".toList then (flowNames.lookup a).map Call.enableHwFlowControl
      else if name = "set_stop_bits".toList then (integer a).map Call.setStopBits
      else if name = "read".toList then (nameOrInteger regNames a).map Call.read
      else none
  | [a, b] =>
      if name = "write".toList then
        match nameOrInteger regNames a, integer b with
        | some addr, some word => some (.write addr word)
        | _, _ => none
      else none
  | [a, b, c, d] =>
      if name = "init_uart".toList then
        match integer a, nameOrInteger parityNames b, flowNames.lookup c, integer d with
        | some baud, some par, some flow, some count => some (.initUart baud par flow count)
        | _, _, _, _ => none
      else none
  | _ => none

/-- The operand texts `, a, b)` that end a call, if the text ends so. -/
def argsOf : List Token → Option (List (List Char))
  | [.mark ')'] => some []
  | .mark ',' :: .word a :: rest => (argsOf rest).map (a :: ·)
  | _ => none

/-- `name(h, a, b)`. -/
def parseCall (text : List Char) : Option Call :=
  match tokenize text [] with
  | .word name :: .mark '(' :: .word ['h'] :: rest =>
      match argsOf rest with
      | some args => callOf name args
      | none => none
  | _ => none

/-- The command a text stands for. -/
def assembleText (text : List Char) : Option Instr :=
  match parseCall text with
  | some c => assemble c
  | none => none

end Sys2Proof.Machine
end

