-- ==== Sys2Proof/Machine/ByteStore.lean ====
section
/-! DEFINITION. The in-memory test fixture of the access layer: a buffer of 28 bytes, "sized to the register block", with
little-endian word load and store (20_memory.md R51, R54, R58). The machine itself runs on the register block of State; this
is a second backing of the same contract. -/

namespace Sys2Proof.Machine

/-- The buffer: 28 bytes (20_memory.md R51). -/
abbrev ByteBuffer := Vector Byte 28

/-- A register's four bytes lie inside the buffer. -/
theorem offset_add_lt (r : Reg) (k : Fin 4) : r.offset + k.val < 28 := by
  cases r <;> simp [Reg.offset] <;> omega

/-- The byte at a register's offset + k. -/
def bufferByte (m : ByteBuffer) (r : Reg) (k : Fin 4) : Byte := m[r.offset + k.val]'(offset_add_lt r k)

/-- Load a word: bits [7:0] at the register's own offset (20_memory.md R54). -/
def bufferRead (m : ByteBuffer) (r : Reg) : Word :=
  bufferByte m r 3 ++ bufferByte m r 2 ++ bufferByte m r 1 ++ bufferByte m r 0

/-- Replace one byte. -/
def bufferSetByte (m : ByteBuffer) (r : Reg) (k : Fin 4) (v : Byte) : ByteBuffer :=
  m.set (r.offset + k.val) v (offset_add_lt r k)

/-- Store a word: four bytes, bits [7:0] lowest (20_memory.md R54). -/
def bufferWrite (m : ByteBuffer) (r : Reg) (v : Word) : ByteBuffer :=
  bufferSetByte
    (bufferSetByte (bufferSetByte (bufferSetByte m r 0 (v.extractLsb' 0 8)) r 1 (v.extractLsb' 8 8)) r 2
      (v.extractLsb' 16 8))
    r 3 (v.extractLsb' 24 8)

/-- The buffer as a backing. -/
def bufferBacking : Backing ByteBuffer := ⟨bufferRead, bufferWrite⟩

end Sys2Proof.Machine
end

