-- ==== Sys2Proof/Safety.lean ====
section
/-! DEFINITION. The terms the statements use: what a command's plan and a word's status are, which commands touch which
register, what a legal response is, what a lawful backing is. -/

namespace Sys2Proof.Machine

/-- The plan of a command: a function of its operands alone (60_exceptions.md R153). -/
def planOf : Instr → Plan
  | .setBaudRate baud => setBaudRatePlan baud
  | .setParity par => setParityPlan par
  | .enableHwFlowControl flow => enableHwFlowControlPlan flow
  | .setStopBits stop => setStopBitsPlan stop
  | .initUart baud par flow stop => initUartPlan baud par flow stop
  | .read addr => readPlan addr
  | .write addr data => writePlan addr data

/-- The status a plan ends with. -/
def Plan.status : Plan → Status
  | .refuse e => .error e
  | .run _ => .ok

/-- The plan of a command word: decoding comes before every other check (60_exceptions.md R149). -/
def wordPlan (w : Command) : Plan :=
  match decode w with
  | .command i => planOf i
  | .illegal _ => .refuse .illegalCommand

/-- The status of a command word. -/
def wordStatus (w : Command) : Status := (wordPlan w).status

end Sys2Proof.Machine

namespace Sys2Proof

open Machine

/-- The command's operands are all in range, so it will answer OK. -/
def Instr.accepted (i : Instr) : Bool := decide ((planOf i).status = .ok)

/-- The command is one of the four setters (00_scope.md R12). -/
def Instr.isSetter : Instr → Bool
  | .setBaudRate _ => true
  | .setParity _ => true
  | .enableHwFlowControl _ => true
  | .setStopBits _ => true
  | .initUart _ _ _ _ => false
  | .read _ => false
  | .write _ _ => false

/-- The BRR bits a setter owns (10_state.md R24); no bit for any other command. -/
def Instr.fieldMask : Instr → Word
  | .setBaudRate _ => 0x0000000F
  | .setParity _ => 0x00000030
  | .enableHwFlowControl _ => 0x00000100
  | .setStopBits _ => 0x0000F000
  | .initUart _ _ _ _ => 0
  | .read _ => 0
  | .write _ _ => 0

/-- The image a setter's operand has inside BRR (10_state.md R25, R28, R29, R30; 40_field_setters.md R110): the table
code, or the operand, at its field's position. It is read only for an accepted setter. -/
def Instr.fieldContents : Instr → Word
  | .setBaudRate baud => ((baudCode baud).getD 0).setWidth 32
  | .setParity par => par.setWidth 32 <<< 4
  | .enableHwFlowControl flow => flow.setWidth 32 <<< 8
  | .setStopBits stop => stop.setWidth 32 <<< 12
  | .initUart _ _ _ _ => 0
  | .read _ => 0
  | .write _ _ => 0

/-- The command is an `init_uart`. -/
def Instr.isInit : Instr → Bool
  | .initUart _ _ _ _ => true
  | .setBaudRate _ => false
  | .setParity _ => false
  | .enableHwFlowControl _ => false
  | .setStopBits _ => false
  | .read _ => false
  | .write _ _ => false

/-- The command, when it is accepted, writes register `r` (the "written by" column of 10_state.md R23). -/
def Instr.mayWrite (r : Reg) : Instr → Bool
  | .setBaudRate _ => decide (r = .brr)
  | .setParity _ => decide (r = .brr)
  | .enableHwFlowControl _ => decide (r = .brr)
  | .setStopBits _ => decide (r = .brr)
  | .initUart _ _ _ _ => decide (r ≠ .rsvd0)
  | .read _ => false
  | .write addr _ => decide (regAt addr = some r)

/-- The command replaces BRR whole: `init_uart`, or a `write` to BRR. -/
def Instr.replacesBrr : Instr → Bool
  | .initUart _ _ _ _ => true
  | .write addr _ => decide (regAt addr = some .brr)
  | .setBaudRate _ => false
  | .setParity _ => false
  | .enableHwFlowControl _ => false
  | .setStopBits _ => false
  | .read _ => false

/-- The command is a `write` that can undo the encoder's work: one to a register other than the reserved word. -/
def Instr.mayUndo : Instr → Bool
  | .write addr _ => decide (regAt addr ≠ none ∧ regAt addr ≠ some .rsvd0)
  | .initUart _ _ _ _ => false
  | .setBaudRate _ => false
  | .setParity _ => false
  | .enableHwFlowControl _ => false
  | .setStopBits _ => false
  | .read _ => false

end Sys2Proof

namespace Sys2Proof.Machine

/-- The word is an `init_uart`'s: the one command whose completion sets `configured` (10_state.md R38). -/
def wordIsInit (w : Command) : Bool :=
  match decode w with
  | .command i => i.isInit
  | .illegal _ => false

/-- The block as the spec has it: a command word goes in, the response comes out, and the eight components are all that stays
(10_state.md R22, R41; 30_encoding.md R79). -/
def Block.execute (w : Command) (b : Block) : Response × Block :=
  (wordPlan w).carryOut (if wordIsInit w then becomeConfigured else stayAsConfigured) b

/-- The commands that the words of a list decode to, in order; illegal words stand for none. -/
def commandsOf (ws : List Command) : List Instr :=
  ws.filterMap fun w =>
    match decode w with
    | .command i => some i
    | .illegal _ => none

/-- The code of the last supported rate a list of commands gives to `set_baud_rate`. -/
def lastBaud : List Instr → Option (BitVec 4)
  | [] => none
  | .setBaudRate baud :: rest => (lastBaud rest).or (baudCode baud)
  | _ :: rest => lastBaud rest

/-- The last legal parity code a list of commands gives to `set_parity`. -/
def lastParity : List Instr → Option (BitVec 2)
  | [] => none
  | .setParity par :: rest => (lastParity rest).or (if par = 3#2 then none else some par)
  | _ :: rest => lastParity rest

/-- The last flow-control bit a list of commands gives to `enable_hw_flow_control`. -/
def lastFlow : List Instr → Option (BitVec 1)
  | [] => none
  | .enableHwFlowControl flow :: rest => (lastFlow rest).or (some flow)
  | _ :: rest => lastFlow rest

/-- The last count up to 15 a list of commands gives to `set_stop_bits`. -/
def lastStop : List Instr → Option (BitVec 8)
  | [] => none
  | .setStopBits stop :: rest => (lastStop rest).or (if stop ≤ 15#8 then some stop else none)
  | _ :: rest => lastStop rest

/-- The register an access goes to. -/
def BusEvent.reg : BusEvent → Reg
  | .read r _ => r
  | .write r _ => r

/-- The access is a write. -/
def BusEvent.isWrite : BusEvent → Bool
  | .read _ _ => false
  | .write _ _ => true

/-- A trace is coherent from `b` to `c`: every read returns the value of the latest write to its register, or what `b` holds
if there was none, and `c` is what the writes leave (20_memory.md R59). -/
def Coherent (b : RegBlock) : List BusEvent → RegBlock → Prop
  | [], c => c = b
  | .read r v :: rest, c => v = b.get r ∧ Coherent b rest c
  | .write r v :: rest, c => Coherent (b.set r v) rest c

/-- The accesses of a trace to one register, in order. -/
def accessesTo (r : Reg) (trace : List BusEvent) : List BusEvent := trace.filter fun e => decide (e.reg = r)

/-- The registers hold a configuration the encoder makes: BRR holds a table code (R25), a parity code with a meaning (R28)
and no bit outside its fields (10_state.md R31), the transmitter and both interrupts are enabled, the two error flags and the
data registers clear (70_reset_and_hazards.md section 2). -/
abbrev State.LegalConfiguration (s : State) : Prop :=
  s.regs.brr &&& 0xFFFF0EC0 = 0 ∧ s.regs.brr.extractLsb' 0 4 ≤ 8#4 ∧ s.regs.brr.extractLsb' 4 2 ≠ 3#2 ∧
  s.regs.ter &&& 0x00800000 = 0x00800000 ∧ s.regs.ier &&& 0x0000C000 = 0x0000C000 ∧ s.regs.rer &&& 0x00000028 = 0 ∧
  s.regs.tdr = 0 ∧ s.regs.rdr = 0

/-- The invariant: the host has no `write` to present that could undo the encoder's work (70_reset_and_hazards.md R178), and
a configured block holds a legal configuration. -/
abbrev State.ConfiguredIsLegal (s : State) : Prop :=
  (∀ i ∈ commandsOf s.commands, i.mayUndo = false) ∧ (s.configured = true → s.LegalConfiguration)

/-- The contract a storage must meet to be a backing of the block (20_memory.md R55, R57, R58): a write replaces the
addressed word, and nothing else. -/
structure Backing.Lawful {σ : Type} (B : Backing σ) : Prop where
  read_write_same : ∀ m r v, B.memRead (B.memWrite m r v) r = v
  read_write_other : ∀ m r r' v, r' ≠ r → B.memRead (B.memWrite m r v) r' = B.memRead m r'

/-- A storage and a register block hold the same seven words. -/
abbrev Backing.Shows {σ : Type} (B : Backing σ) (m : σ) (b : RegBlock) : Prop := ∀ r, B.memRead m r = b.get r

end Sys2Proof.Machine
end

