-- ==== Sys2Proof/Certificates/Slice0/Obligations.lean ====
section
/-! DEFINITION. The statements for the provers. Each docstring names the rule of spec/ it formalises; where a clause rests on
a decision of the spec (`92_eei_decisions.md`) or on an entry of the assumption log, it says so. -/

open Sys2Proof Sys2Proof.Machine

/-! ## Encoding -/

/-- The example words of 95_test_vectors.md (D2, D17, D19, D24, D29, D39, and the example of R131) decode to the commands
their text names, and D50, D51, D53 and D55 are illegal. The encoding is the spec's decision (D1 to D3). -/
def Obligations.SpecWordsDecodeToTheirCommands : Prop :=
  decode 0x1000000000002580 = .command (.setBaudRate 9600) ∧
  decode 0x2000000200000000 = .command (.setParity 2) ∧
  decode 0x3000000400000000 = .command (.enableHwFlowControl 1) ∧
  decode 0x4000020000000000 = .command (.setStopBits 2) ∧
  decode 0x500001060001C200 = .command (.initUart 115200 2 1 1) ∧
  decode 0x6000000400000000 = .command (.read 0x04) ∧
  decode 0x7000000800000001 = .command (.write 0x08 0x00000001) ∧
  decode 0x0000000000000000 = .illegal .opcode ∧
  decode 0x8000000000000000 = .illegal .opcode ∧
  decode 0x2000000100000001 = .illegal .mustBeZero ∧
  decode 0x500801020001C200 = .illegal .mustBeZero

/-- Decoding the word of a command gives the command, for every value of every operand (30_encoding.md R72 to R74, R84;
decisions D1 to D3). -/
def Obligations.DecodeOfEncodeIsTheCommand : Prop := ∀ i : Instr, decode (encode i) = .command i

/-- A word that decodes to a command is that command's word, bit for bit: no legal word has a second meaning, and every word
that is no command's word is illegal (30_encoding.md R83; decision D1). -/
def Obligations.EveryWordIsOneCommandOrIllegal : Prop :=
  ∀ w : Command,
    (∃ i, decode w = .command i ∧ encode i = w ∧ ∀ j, encode j = w → j = i) ∨
    ((∃ why, decode w = .illegal why) ∧ ∀ i, encode i ≠ w)

/-- The decoder read field by field: the opcode chooses the command, the fields the command does not use must be zero, and
its operands are the fields it uses (30_encoding.md R71 to R74, R84; decisions D1 to D3). -/
def Obligations.DecodeReadsOpcodeZeroFieldsAndOperands : Prop :=
  ∀ w : Command,
    (opField w = 0x1 → decode w =
      if mbz2Field w = 0 ∧ stopField w = 0 ∧ mbz1Field w = 0 ∧ flowField w = 0 ∧ parField w = 0 then
        .command (.setBaudRate (baudField w)) else .illegal .mustBeZero) ∧
    (opField w = 0x2 → decode w =
      if mbz2Field w = 0 ∧ stopField w = 0 ∧ mbz1Field w = 0 ∧ flowField w = 0 ∧ baudField w = 0 then
        .command (.setParity (parField w)) else .illegal .mustBeZero) ∧
    (opField w = 0x3 → decode w =
      if mbz2Field w = 0 ∧ stopField w = 0 ∧ mbz1Field w = 0 ∧ parField w = 0 ∧ baudField w = 0 then
        .command (.enableHwFlowControl (flowField w)) else .illegal .mustBeZero) ∧
    (opField w = 0x4 → decode w =
      if mbz2Field w = 0 ∧ mbz1Field w = 0 ∧ flowField w = 0 ∧ parField w = 0 ∧ baudField w = 0 then
        .command (.setStopBits (stopField w)) else .illegal .mustBeZero) ∧
    (opField w = 0x5 → decode w =
      if mbz2Field w = 0 ∧ mbz1Field w = 0 then
        .command (.initUart (baudField w) (parField w) (flowField w) (stopField w)) else .illegal .mustBeZero) ∧
    (opField w = 0x6 → decode w =
      if dataField w = 0 then .command (.read (addrField w)) else .illegal .mustBeZero) ∧
    (opField w = 0x7 → decode w = .command (.write (addrField w) (dataField w))) ∧
    (opField w = 0x0 ∨ 0x8 ≤ opField w → decode w = .illegal .opcode)

/-- The seven match and mask pairs are disjoint, so the order of the table does not matter (30_encoding.md R74). -/
def Obligations.PatternsAreDisjoint : Prop :=
  ∀ w : Command, ∀ p ∈ patterns, ∀ q ∈ patterns, p.hits w = true → q.hits w = true → p = q

/-- R81: an opcode of 0x0 or 0x8 to 0xF. The word makes no access, changes neither the register block nor `configured`, and
is answered `IllegalCommand` with data 0; the all-zero word is one (decision D3). -/
def Obligations.UnassignedOpcodeIsIllegalCommand : Prop :=
  (∀ (s : State) (w : Command) (ws : List Command),
    s.commands = w :: ws → (opField w = 0x0 ∨ 0x8 ≤ opField w) →
    step s = .next { s with commands := ws, response := some ⟨.error .illegalCommand, 0⟩ } ∧
    (wordPlan w).trace registerBacking s.regs = []) ∧
  opField 0x0000000000000000 = 0x0

/-- R82: an opcode 0x1 to 0x7 on a word that matches none of the seven pairs. No access, no change, `IllegalCommand`; the
rule's own example, `set_parity` with a stray baud of 1, is such a word (decision D3). -/
def Obligations.StrayBitIsIllegalCommand : Prop :=
  (∀ (s : State) (w : Command) (ws : List Command),
    s.commands = w :: ws → 0x1 ≤ opField w → opField w ≤ 0x7 → (∀ p ∈ patterns, p.hits w = false) →
    step s = .next { s with commands := ws, response := some ⟨.error .illegalCommand, 0⟩ } ∧
    (wordPlan w).trace registerBacking s.regs = []) ∧
  opField 0x2000000100000001 = 0x2 ∧ (∀ p ∈ patterns, p.hits 0x2000000100000001 = false)

/-- The text form's integers (30_encoding.md R85): a call with every integer in its range stands for exactly one command, a
call with an integer out of range for none, and every command has its call. -/
def Obligations.WellFormedCallsAreTheCommands : Prop :=
  (∀ i : Instr, i.wellFormed = true ∧ assemble i.toCall = some i) ∧
  (∀ c : Call, c.wellFormed = false → assemble c = none) ∧
  (∀ (c : Call) (i : Instr), assemble c = some i → i.toCall = c)

/-- The three calls 30_encoding.md R85 takes from the source are in the syntax and stand for the commands the worked
examples give them; an out-of-range parity and a missing handle are not (log entry 8 for the lexical points). -/
def Obligations.DocumentCallsAssemble : Prop :=
  assembleText "init_uart(h, 115200, None, disabled, 1)".toList = some (.initUart 115200 2 0 1) ∧
  assembleText "init_uart(h, 4800, Even, disabled, 1)".toList = some (.initUart 4800 0 0 1) ∧
  assembleText "enable_hw_flow_control(h, true)".toList = some (.enableHwFlowControl 1) ∧
  assembleText "set_parity(h, 4)".toList = none ∧
  assembleText "set_parity(Even)".toList = none

/-! ## The step -/

/-- When the host presents a word that decodes to a command, the step is that command's execution on the state with the word
taken from the port (00_scope.md R11; 30_encoding.md R84; log entry 1 for the port). -/
def Obligations.StepRunsTheDecodedCommand : Prop :=
  ∀ (s : State) (w : Command) (ws : List Command) (i : Instr),
    s.commands = w :: ws → decode w = .command i → step s = exec i { s with commands := ws }

/-- With no command presented the block stays as it is and shows no response. That the block has such a step is the model's
choice (log entry 2), deduced from 20_memory.md R62. -/
def Obligations.NothingPresentedNothingChanges : Prop :=
  ∀ s : State, s.commands = [] → step s = .next { s with response := none }

/-- Every step completes, and one that has a word to execute answers it (60_exceptions.md, on completion; the word is taken from
the port of log entry 1). That a step with no word presented completes too is the model's choice, log entry 2: the spec gives no
step without a command. -/
def Obligations.EveryCommandEndsWithAResponse : Prop :=
  ∀ s : State, ∃ t, step s = .next t ∧ t.commands = s.commands.tail ∧
    (s.commands ≠ [] → ∃ r, t.response = some r)

/-- No run stops: any number of steps from any state completes, and the port of log entry 1 has then lost that many words, or all
of them if it held fewer. The steps past the last word presented are the idle steps of log entry 2, the model's choice, and are no
commands. -/
def Obligations.RunsNeverStop : Prop :=
  ∀ (n : Nat) (s : State), ∃ t, Host.Core.run core n s = .next t ∧ t.commands = s.commands.drop n

/-! ## The four setters -/

/-- R27: the Baud Rate Table, exact equality with nine rates and no other. -/
def Obligations.BaudTableHasExactlyNineRates : Prop :=
  (∀ (b : BitVec 32) (c : BitVec 4), baudCode b = some c ↔
    (b.toNat, c.toNat) ∈ [(4800, 0), (9600, 1), (14400, 2), (19200, 3), (38400, 4), (57600, 5), (115200, 6), (128000, 7),
      (256000, 8)]) ∧
  baudCode 115201 = none ∧ baudCode 0 = none

/-- R103, `set_baud_rate`: its word; for a rate of the table one read and one write of BRR, BRR[3:0] takes the code, answer
(OK, 0); for any other rate no access, no change, answer (UnsupportedBaudRate, 0). -/
def Obligations.SetBaudRateWritesTheCode : Prop :=
  ∀ (baud : BitVec 32) (s : State),
    encode (.setBaudRate baud) = 0x1000000000000000#64 ||| baud.setWidth 64 ∧
    (∀ c, baudCode baud = some c →
      exec (.setBaudRate baud) s = .next { s with
        regs := { s.regs with brr := (s.regs.brr &&& 0xFFFFFFF0#32) ||| c.setWidth 32 }
        response := some ⟨.ok, 0⟩ } ∧
      (planOf (.setBaudRate baud)).trace registerBacking s.regs =
        [.read .brr s.regs.brr, .write .brr ((s.regs.brr &&& 0xFFFFFFF0#32) ||| c.setWidth 32)]) ∧
    (baudCode baud = none →
      exec (.setBaudRate baud) s = .next { s with response := some ⟨.error .unsupportedBaudRate, 0⟩ } ∧
      (planOf (.setBaudRate baud)).trace registerBacking s.regs = [])

/-- R104, `set_parity`: its word; for code 0, 1 or 2 BRR[5:4] takes the code; code 3 is InvalidParityCode. -/
def Obligations.SetParityWritesTheCode : Prop :=
  ∀ (par : BitVec 2) (s : State),
    encode (.setParity par) = 0x2000000000000000#64 ||| (par.setWidth 64 <<< 32) ∧
    (par ≠ 3#2 →
      exec (.setParity par) s = .next { s with
        regs := { s.regs with brr := (s.regs.brr &&& 0xFFFFFFCF#32) ||| (par.setWidth 32 <<< 4) }
        response := some ⟨.ok, 0⟩ } ∧
      (planOf (.setParity par)).trace registerBacking s.regs =
        [.read .brr s.regs.brr, .write .brr ((s.regs.brr &&& 0xFFFFFFCF#32) ||| (par.setWidth 32 <<< 4))]) ∧
    (par = 3#2 →
      exec (.setParity par) s = .next { s with response := some ⟨.error .invalidParityCode, 0⟩ } ∧
      (planOf (.setParity par)).trace registerBacking s.regs = [])

/-- R105, `enable_hw_flow_control`: its word; BRR[8] takes the bit, whichever it is; there is no error. -/
def Obligations.EnableHwFlowControlWritesTheBit : Prop :=
  ∀ (flow : BitVec 1) (s : State),
    encode (.enableHwFlowControl flow) = 0x3000000000000000#64 ||| (flow.setWidth 64 <<< 34) ∧
    exec (.enableHwFlowControl flow) s = .next { s with
      regs := { s.regs with brr := (s.regs.brr &&& 0xFFFFFEFF#32) ||| (flow.setWidth 32 <<< 8) }
      response := some ⟨.ok, 0⟩ } ∧
    (planOf (.enableHwFlowControl flow)).trace registerBacking s.regs =
      [.read .brr s.regs.brr, .write .brr ((s.regs.brr &&& 0xFFFFFEFF#32) ||| (flow.setWidth 32 <<< 8))]

/-- R106, `set_stop_bits`: its word; a count up to 15 goes into BRR[15:12]; a count of 16 to 255 is InvalidFieldValue and
does not wrap (decision D10 for the counts that are accepted). -/
def Obligations.SetStopBitsWritesTheCount : Prop :=
  ∀ (stop : BitVec 8) (s : State),
    encode (.setStopBits stop) = 0x4000000000000000#64 ||| (stop.setWidth 64 <<< 40) ∧
    (stop ≤ 15#8 →
      exec (.setStopBits stop) s = .next { s with
        regs := { s.regs with brr := (s.regs.brr &&& 0xFFFF0FFF#32) ||| (stop.setWidth 32 <<< 12) }
        response := some ⟨.ok, 0⟩ } ∧
      (planOf (.setStopBits stop)).trace registerBacking s.regs =
        [.read .brr s.regs.brr, .write .brr ((s.regs.brr &&& 0xFFFF0FFF#32) ||| (stop.setWidth 32 <<< 12))]) ∧
    (15#8 < stop →
      exec (.setStopBits stop) s = .next { s with response := some ⟨.error .invalidFieldValue, 0⟩ } ∧
      (planOf (.setStopBits stop)).trace registerBacking s.regs = [])

/-- R100, mask-clear-then-set, of every accepted setter: one read of BRR followed by one write of it, the field takes exactly
the operand's image and every other bit keeps its old value, and the write happens even when nothing changes. -/
def Obligations.SettersMaskClearThenSet : Prop :=
  ∀ (i : Instr) (s : State), i.isSetter = true → i.accepted = true →
    ∃ t, exec i s = .next t ∧
      t.regs.brr &&& i.fieldMask = i.fieldContents ∧
      t.regs.brr &&& ~~~i.fieldMask = s.regs.brr &&& ~~~i.fieldMask ∧
      (planOf i).trace registerBacking s.regs = [.read .brr s.regs.brr, .write .brr t.regs.brr]

/-- The frame of the four setters (R40, R109), whatever the operand: only BRR is accessed, no register but BRR changes, no
BRR bit outside the setter's field changes, `configured` and the port keep their values, every byte outside BRR's four reads
as before, and the setter does the same on a configured and an unconfigured block. -/
def Obligations.SettersTouchOnlyTheirField : Prop :=
  ∀ (i : Instr) (s : State), i.isSetter = true →
    ∃ t, exec i s = .next t ∧
      (∀ r, r ≠ .brr → t.regs.get r = s.regs.get r) ∧
      (∀ k, i.fieldMask.getLsbD k = false → t.regs.brr.getLsbD k = s.regs.brr.getLsbD k) ∧
      t.configured = s.configured ∧ t.commands = s.commands ∧
      (∀ a, a < Reg.brr.offset ∨ Reg.brr.offset + 4 ≤ a → t.byteAt a = s.byteAt a) ∧
      (∀ e ∈ (planOf i).trace registerBacking s.regs, e.reg = .brr) ∧
      (∀ c, exec i { s with configured := c } = .next { t with configured := c })

/-- Two setters of different fields commute; of two accepted setters of one field the later wins (an inference of the spec,
40_field_setters.md section 3 on order). -/
def Obligations.SettersOfDifferentFieldsCommute : Prop :=
  ∀ (i j : Instr) (s : State), i.isSetter = true → j.isSetter = true →
    ∃ t₁ t₂ u₁ u₂, exec i s = .next t₁ ∧ exec j t₁ = .next t₂ ∧ exec j s = .next u₁ ∧ exec i u₁ = .next u₂ ∧
      (i.fieldMask ≠ j.fieldMask → t₂.regs = u₂.regs) ∧
      (i.fieldMask = j.fieldMask → j.accepted = true → t₂.regs = u₁.regs)

/-- Every setter is idempotent: doing it again leaves the state, response included, as it was (an inference of the spec,
40_field_setters.md section 3). -/
def Obligations.SettersAreIdempotent : Prop :=
  ∀ (i : Instr) (s t : State), i.isSetter = true → exec i s = .next t → exec i t = .next t

/-- BRR after any sequence of command words none of which is `init_uart` or a `write` to BRR: each field holds the last
accepted operand given to its setter, or what it held before if there was none, and the bits no setter owns are as they were
(an inference of the spec, 40_field_setters.md section 3, on the packed value). -/
def Obligations.BrrHoldsTheLastOperands : Prop :=
  ∀ (s : State), (∀ i ∈ commandsOf s.commands, i.replacesBrr = false) →
    ∃ t, Host.Core.run core s.commands.length s = .next t ∧
      t.regs.brr &&& 0xFFFF0EC0#32 = s.regs.brr &&& 0xFFFF0EC0#32 ∧
      t.regs.brr.extractLsb' 0 4 = (lastBaud (commandsOf s.commands)).getD (s.regs.brr.extractLsb' 0 4) ∧
      t.regs.brr.extractLsb' 4 2 = (lastParity (commandsOf s.commands)).getD (s.regs.brr.extractLsb' 4 2) ∧
      t.regs.brr.extractLsb' 8 1 = (lastFlow (commandsOf s.commands)).getD (s.regs.brr.extractLsb' 8 1) ∧
      t.regs.brr.extractLsb' 12 4 =
        ((lastStop (commandsOf s.commands)).map (BitVec.setWidth 4)).getD (s.regs.brr.extractLsb' 12 4)

/-! ## init_uart -/

/-- What an `init_uart` whose operands are all legal does to each register, access by access (R121, R122, decision D12), its
completion (R124), and the end state in the closed form that R125 derives from them. BRR is zeroed and then packed by four masked
writes; TER[23] and IER[15:14] are set and RER[5], RER[3] cleared by read-modify-write; TDR and RDR are zeroed; RSVD0 is not
touched; then `configured` is 1 and the answer is (OK, 0). Seventeen accesses in all. Their order between different registers is
decision D13, on which the spec wants no claim to rest, and is not stated. -/
def Obligations.InitUartConfiguresTheBlock : Prop :=
  ∀ (baud : BitVec 32) (par : BitVec 2) (flow : BitVec 1) (stop : BitVec 8) (c : BitVec 4) (s : State),
    baudCode baud = some c → par ≠ 3#2 → stop ≤ 15#8 →
    exec (.initUart baud par flow stop) s = .next { s with
      regs :=
        { rsvd0 := s.regs.rsvd0
          brr := c.setWidth 32 ||| (par.setWidth 32 <<< 4) ||| (flow.setWidth 32 <<< 8) ||| (stop.setWidth 32 <<< 12)
          ter := s.regs.ter ||| 0x00800000
          rer := s.regs.rer &&& 0xFFFFFFD7#32
          ier := s.regs.ier ||| 0x0000C000
          tdr := 0
          rdr := 0 }
      configured := true
      response := some ⟨.ok, 0⟩ } ∧
    let trace := (planOf (.initUart baud par flow stop)).trace registerBacking s.regs
    (∃ b₁ b₂ b₃ b₄ : Word,
      accessesTo .brr trace =
        [.write .brr 0, .read .brr 0, .write .brr b₁, .read .brr b₁, .write .brr b₂, .read .brr b₂, .write .brr b₃,
          .read .brr b₃, .write .brr b₄] ∧
      b₁ = ((0#32 &&& 0xFFFFFFF0#32) ||| c.setWidth 32) ∧ b₂ = ((b₁ &&& 0xFFFFFFCF#32) ||| (par.setWidth 32 <<< 4)) ∧
      b₃ = ((b₂ &&& 0xFFFFFEFF#32) ||| (flow.setWidth 32 <<< 8)) ∧ b₄ = ((b₃ &&& 0xFFFF0FFF#32) ||| (stop.setWidth 32 <<< 12))) ∧
    accessesTo .ter trace = [.read .ter s.regs.ter, .write .ter (s.regs.ter ||| 0x00800000)] ∧
    accessesTo .ier trace = [.read .ier s.regs.ier, .write .ier (s.regs.ier ||| 0x0000C000)] ∧
    accessesTo .rer trace = [.read .rer s.regs.rer, .write .rer (s.regs.rer &&& 0xFFFFFFD7#32)] ∧
    accessesTo .tdr trace = [.write .tdr 0] ∧ accessesTo .rdr trace = [.write .rdr 0] ∧ accessesTo .rsvd0 trace = [] ∧ trace.length = 17

/-- The word of `init_uart`, and its refusal: when any operand is bad no access is made and nothing changes, not even BRR to
zero (90_conflicts.md C3), and the answer is the code of a check that fails. Which of two applicable codes is not said here
(decision D9). -/
def Obligations.InitUartRefusesWhole : Prop :=
  ∀ (baud : BitVec 32) (par : BitVec 2) (flow : BitVec 1) (stop : BitVec 8) (s : State),
    encode (.initUart baud par flow stop) =
      0x5000000000000000#64 ||| (stop.setWidth 64 <<< 40) ||| (flow.setWidth 64 <<< 34) ||| (par.setWidth 64 <<< 32) |||
        baud.setWidth 64 ∧
    (baudCode baud = none ∨ par = 3#2 ∨ 15#8 < stop →
      ∃ e, exec (.initUart baud par flow stop) s = .next { s with response := some ⟨.error e, 0⟩ } ∧
        (planOf (.initUart baud par flow stop)).trace registerBacking s.regs = [] ∧
        ((e = .unsupportedBaudRate ∧ baudCode baud = none) ∨ (e = .invalidParityCode ∧ par = 3#2) ∨
          (e = .invalidFieldValue ∧ 15#8 < stop)))

/-- The spec's own choice among the errors of an `init_uart` with several bad operands: baud, then parity, then stop count
(decision D9; 60_exceptions.md section 2). Nothing else here rests on it. -/
def Obligations.InitUartReportsTheFirstBadOperand : Prop :=
  ∀ (baud : BitVec 32) (par : BitVec 2) (flow : BitVec 1) (stop : BitVec 8),
    (baudCode baud = none → (planOf (.initUart baud par flow stop)).status = .error .unsupportedBaudRate) ∧
    (baudCode baud ≠ none → par = 3#2 → (planOf (.initUart baud par flow stop)).status = .error .invalidParityCode) ∧
    (baudCode baud ≠ none → par ≠ 3#2 → 15#8 < stop →
      (planOf (.initUart baud par flow stop)).status = .error .invalidFieldValue)

/-- The frame of `init_uart`: RSVD0, the bits of TER, IER and RER it does not name, the bytes of the reserved word and the
port keep their values; and when an operand is bad, everything but the response does. -/
def Obligations.InitUartKeepsWhatItDoesNotName : Prop :=
  ∀ (baud : BitVec 32) (par : BitVec 2) (flow : BitVec 1) (stop : BitVec 8) (s : State),
    ∃ t, exec (.initUart baud par flow stop) s = .next t ∧
      t.regs.rsvd0 = s.regs.rsvd0 ∧ t.commands = s.commands ∧
      (∀ k, k ≠ 23 → t.regs.ter.getLsbD k = s.regs.ter.getLsbD k) ∧
      (∀ k, k ≠ 14 → k ≠ 15 → t.regs.ier.getLsbD k = s.regs.ier.getLsbD k) ∧
      (∀ k, k ≠ 3 → k ≠ 5 → t.regs.rer.getLsbD k = s.regs.rer.getLsbD k) ∧
      (∀ a, a < Reg.rsvd0.offset + 4 ∨ Reg.rdr.offset + 4 ≤ a → t.byteAt a = s.byteAt a) ∧
      ((Instr.initUart baud par flow stop).accepted = false →
        t.configured = s.configured ∧ ∀ a, t.byteAt a = s.byteAt a)

/-- What a successful `init_uart` establishes whatever the registers held, reset contents included (an inference of the spec,
70_reset_and_hazards.md section 2): BRR is fixed by the operands, TER[23] = 1, IER[15:14] = 3, RER[3] = RER[5] = 0, TDR =
RDR = 0, configured = 1. -/
def Obligations.InitUartEstablishesForEveryStart : Prop :=
  ∀ (baud : BitVec 32) (par : BitVec 2) (flow : BitVec 1) (stop : BitVec 8) (s s' : State),
    (Instr.initUart baud par flow stop).accepted = true →
    ∃ t t', exec (.initUart baud par flow stop) s = .next t ∧ exec (.initUart baud par flow stop) s' = .next t' ∧
      t.regs.brr = t'.regs.brr ∧ t.regs.brr &&& 0xFFFF0EC0#32 = 0 ∧
      t.regs.ter.getLsbD 23 = true ∧ t.regs.ier.getLsbD 14 = true ∧ t.regs.ier.getLsbD 15 = true ∧
      t.regs.rer.getLsbD 3 = false ∧ t.regs.rer.getLsbD 5 = false ∧
      t.regs.tdr = 0 ∧ t.regs.rdr = 0 ∧ t.configured = true

/-- `init_uart` packs BRR as a `write` of 0 to BRR and the four setters do, in the source's order, though it is no macro for
them: they leave `configured` and TER alone (30_encoding.md section 5; 41_init.md; program P5 of 95_test_vectors.md). -/
def Obligations.InitUartPacksBrrAsTheSettersDo : Prop :=
  ∀ (baud : BitVec 32) (par : BitVec 2) (flow : BitVec 1) (stop : BitVec 8) (s : State),
    (Instr.initUart baud par flow stop).accepted = true →
    ∃ t u₀ u₁ u₂ u₃ u₄, exec (.initUart baud par flow stop) s = .next t ∧
      exec (.write 0x04 0) s = .next u₀ ∧ exec (.setBaudRate baud) u₀ = .next u₁ ∧
      exec (.setParity par) u₁ = .next u₂ ∧ exec (.enableHwFlowControl flow) u₂ = .next u₃ ∧
      exec (.setStopBits stop) u₃ = .next u₄ ∧
      t.regs.brr = u₄.regs.brr ∧ u₄.configured = s.configured ∧ u₄.regs.ter = s.regs.ter

/-! ## read and write -/

/-- R130, `read`: its word; at the offset of a register one read and the answer (OK, the word), nothing changed; at any other
address no access and (InvalidAddress, 0). -/
def Obligations.ReadAnswersTheRegister : Prop :=
  ∀ (addr : Addr) (s : State),
    encode (.read addr) = 0x6000000000000000#64 ||| (addr.setWidth 64 <<< 32) ∧
    (∀ r : Reg, addr.toNat = r.offset →
      exec (.read addr) s = .next { s with response := some ⟨.ok, s.regs.get r⟩ } ∧
      (planOf (.read addr)).trace registerBacking s.regs = [.read r (s.regs.get r)]) ∧
    (addr.toNat ∉ [0x00, 0x04, 0x08, 0x0C, 0x10, 0x14, 0x18] →
      exec (.read addr) s = .next { s with response := some ⟨.error .invalidAddress, 0⟩ } ∧
      (planOf (.read addr)).trace registerBacking s.regs = [])

/-- R131, `write`: its word; at the offset of a register all 32 bits are stored and the answer is (OK, 0); at any other
address no access and (InvalidAddress, 0). -/
def Obligations.WriteReplacesTheRegister : Prop :=
  ∀ (addr : Addr) (data : Word) (s : State),
    encode (.write addr data) = 0x7000000000000000#64 ||| (addr.setWidth 64 <<< 32) ||| data.setWidth 64 ∧
    (∀ r : Reg, addr.toNat = r.offset →
      exec (.write addr data) s = .next { s with regs := s.regs.set r data, response := some ⟨.ok, 0⟩ } ∧
      (planOf (.write addr data)).trace registerBacking s.regs = [.write r data]) ∧
    (addr.toNat ∉ [0x00, 0x04, 0x08, 0x0C, 0x10, 0x14, 0x18] →
      exec (.write addr data) s = .next { s with response := some ⟨.error .invalidAddress, 0⟩ } ∧
      (planOf (.write addr data)).trace registerBacking s.regs = [])

/-- The frame of `read` (R55 of a read): nothing changes, at any address, and a second read of the address answers the same. -/
def Obligations.ReadChangesNothing : Prop :=
  ∀ (addr : Addr) (s : State),
    ∃ t, exec (.read addr) s = .next t ∧ t.regs = s.regs ∧ t.configured = s.configured ∧ t.commands = s.commands ∧
      (∀ a, t.byteAt a = s.byteAt a) ∧ exec (.read addr) t = .next t

/-- The frame of `write`: it stores at the register `regAt` gives for its address. Every byte outside that register's four,
every other register, `configured` and the port keep their values; the four bytes are the word's, lowest first (decision D4);
and where `regAt` gives none every byte keeps its value. -/
def Obligations.WriteChangesOnlyItsWord : Prop :=
  ∀ (addr : Addr) (data : Word) (s : State),
    ∃ t, exec (.write addr data) s = .next t ∧ t.configured = s.configured ∧ t.commands = s.commands ∧
      (∀ r, regAt addr = some r →
        t.regs.get r = data ∧
        (∀ r', r' ≠ r → t.regs.get r' = s.regs.get r') ∧
        (∀ k, k < 4 → t.byteAt (addr.toNat + k) = some (data.extractLsb' (8 * k) 8)) ∧
        (∀ a, a < addr.toNat ∨ addr.toNat + 4 ≤ a → t.byteAt a = s.byteAt a)) ∧
      (regAt addr = none → ∀ a, t.byteAt a = s.byteAt a)

/-- A `read` after a successful `write` to the same register returns the word written, whatever commands come between as long
as none of them can write that register (an inference of the spec, 42_access.md). -/
def Obligations.ReadReturnsTheLatestWrite : Prop :=
  ∀ (s : State) (addr : Addr) (data : Word) (r : Reg) (between rest : List Command),
    regAt addr = some r →
    s.commands = encode (.write addr data) :: between ++ encode (.read addr) :: rest →
    (∀ i ∈ commandsOf between, i.mayWrite r = false) →
    ∃ t, Host.Core.run core (between.length + 2) s = .next t ∧ t.response = some ⟨.ok, data⟩ ∧ t.commands = rest

/-! ## The address space -/

/-- The seven offsets of 20_memory.md R51 and 10_state.md R23. -/
def Obligations.RegisterOffsetsAreFixed : Prop :=
  Reg.rsvd0.offset = 0x00 ∧ Reg.brr.offset = 0x04 ∧ Reg.ter.offset = 0x08 ∧ Reg.rer.offset = 0x0C ∧
  Reg.ier.offset = 0x10 ∧ Reg.tdr.offset = 0x14 ∧ Reg.rdr.offset = 0x18

/-- R53: an address is valid when its two low bits are zero and it is at most 0x18, and the seven offsets are exactly those;
a `read` or `write` of any other makes no access, changes no state and ends with InvalidAddress (decision D5); no encoder
command ever ends so. -/
def Obligations.ValidAddressesAreTheSevenWordOffsets : Prop :=
  (∀ a : Addr, (a.extractLsb' 0 2 = 0#2 ∧ a ≤ 0x18#28) ↔ a.toNat ∈ [0x00, 0x04, 0x08, 0x0C, 0x10, 0x14, 0x18]) ∧
  (∀ (a : Addr) (data : Word) (s : State), ¬ (a.extractLsb' 0 2 = 0#2 ∧ a ≤ 0x18#28) →
    exec (.read a) s = .next { s with response := some ⟨.error .invalidAddress, 0⟩ } ∧
    exec (.write a data) s = .next { s with response := some ⟨.error .invalidAddress, 0⟩ } ∧
    (planOf (.read a)).trace registerBacking s.regs = [] ∧
    (planOf (.write a data)).trace registerBacking s.regs = []) ∧
  (∀ (i : Instr) (s t : State) (d : Word), i.isSetter = true ∨ i.isInit = true → exec i s = .next t →
    t.response ≠ some ⟨.error .invalidAddress, d⟩)

/-- R54: seen as 28 bytes the register block is little-endian (decision D4). Byte k of a register's four is bits 8k + 7 to
8k; at 0x1C and above there is no byte; and the rule's example, BRR = 0x00001026. -/
def Obligations.BlockBytesAreLittleEndian : Prop :=
  (∀ (s : State) (r : Reg) (k : Nat), k < 4 →
    s.byteAt (r.offset + k) = some ((s.regs.get r).extractLsb' (8 * k) 8)) ∧
  (∀ (s : State) (a : Nat), 0x1C ≤ a → s.byteAt a = none) ∧
  (∀ s : State, s.regs.brr = 0x00001026 →
    s.byteAt 0x04 = some 0x26 ∧ s.byteAt 0x05 = some 0x10 ∧ s.byteAt 0x06 = some 0x00 ∧ s.byteAt 0x07 = some 0x00)

/-- The accesses of a command, in pseudocode order: every read returns the latest write of its register or what the block held
before, and the block holds afterwards what the writes left (20_memory.md, ordering). -/
def Obligations.EveryReadReturnsTheLatestWrite : Prop :=
  ∀ (i : Instr) (s : State), ∃ t, exec i s = .next t ∧
    Coherent s.regs ((planOf i).trace registerBacking s.regs) t.regs

/-- The substitutable access layer (20_memory.md, on substitution): any storage that meets the contract and holds the same
words gives every accepted command the same response data, the same trace, and the same words afterwards. -/
def Obligations.LawfulBackingsBehaveAlike : Prop :=
  ∀ (σ : Type) (B : Backing σ) (m : σ) (s : State) (i : Instr) (accesses : List Access),
    B.Lawful → B.Shows m s.regs → planOf i = .run accesses →
    ∃ t, exec i s = .next t ∧ B.Shows (runAccesses B accesses (m, 0)).1 t.regs ∧
      t.response = some ⟨.ok, (runAccesses B accesses (m, 0)).2⟩ ∧
      (planOf i).trace B m = (planOf i).trace registerBacking s.regs

/-- The 28-byte test buffer meets the contract, and a word stored in it lies there lowest byte first (20_memory.md on byte
order and substitution; decision D4). -/
def Obligations.ByteBufferIsALawfulBacking : Prop :=
  bufferBacking.Lawful ∧
  (∀ (m : ByteBuffer) (r : Reg) (v : Word) (k : Fin 4), bufferByte (bufferWrite m r v) r k = v.extractLsb' (8 * k.val) 8)

/-! ## Errors -/

/-- R147: a command that ends in an error has made no access to the register block, not even a read, and has not changed
`configured`; the block after it is the block before it. -/
def Obligations.FailingCommandChangesNothing : Prop :=
  ∀ (s t : State) (w : Command) (ws : List Command) (r : Response),
    s.commands = w :: ws → step s = .next t → t.response = some r → r.status ≠ .ok →
    t.regs = s.regs ∧ t.configured = s.configured ∧ t.commands = ws ∧ r.data = 0 ∧
      (wordPlan w).trace registerBacking s.regs = []

/-- R153: whether a command fails, and with which code, is a function of its word alone: on any two states that present the
same word the status is the same, namely `wordStatus` of the word. -/
def Obligations.StatusDependsOnTheWordAlone : Prop :=
  ∀ (s : State) (w : Command) (ws : List Command), s.commands = w :: ws →
    ∃ t r, step s = .next t ∧ t.response = some r ∧ r.status = wordStatus w

/-- R144: `InvalidStopBitCount` is defined, with its code, and no command word raises it: a count that fits the field is
accepted and one that does not is an `InvalidFieldValue` (decision D10). -/
def Obligations.InvalidStopBitCountIsNeverRaised : Prop :=
  CommandError.invalidStopBitCount.code = 0x3 ∧
  (∀ (s t : State) (r : Response), s.commands ≠ [] → step s = .next t → t.response = some r →
    r.status ≠ .error .invalidStopBitCount) ∧
  (∀ stop : BitVec 8,
    (planOf (.setStopBits stop)).status = if stop ≤ 15#8 then .ok else .error .invalidFieldValue) ∧
  (∀ (baud : BitVec 32) (par : BitVec 2) (flow : BitVec 1) (stop : BitVec 8), baudCode baud ≠ none → par ≠ 3#2 →
    (planOf (.initUart baud par flow stop)).status = if stop ≤ 15#8 then .ok else .error .invalidFieldValue)

/-- The numbers of the seven statuses and the bits of a response (decisions D6, D7): no two statuses share a code, and no
code above 6 is produced. -/
def Obligations.StatusCodesAreTheTable : Prop :=
  Status.ok.code = 0x0 ∧ (Status.error .unsupportedBaudRate).code = 0x1 ∧ (Status.error .invalidParityCode).code = 0x2 ∧
  (Status.error .invalidStopBitCount).code = 0x3 ∧ (Status.error .invalidFieldValue).code = 0x4 ∧
  (Status.error .invalidAddress).code = 0x5 ∧ (Status.error .illegalCommand).code = 0x6 ∧
  (∀ a b : Status, a.code = b.code → a = b) ∧ (∀ a : Status, a.code ≤ 0x6) ∧
  (∀ r : Response, r.bits.extractLsb' 32 4 = r.status.code ∧ r.bits.extractLsb' 0 32 = r.data)

/-- R151: errors are not sticky. After any number of failing words a command does exactly what it would have done without
them, whatever the failures were. -/
def Obligations.ErrorsAreNotSticky : Prop :=
  ∀ (s : State) (bad : List Command) (w : Command) (ws : List Command),
    (∀ b ∈ bad, wordStatus b ≠ .ok) → s.commands = bad ++ w :: ws →
    ∃ t, Host.Core.run core (bad.length + 1) s = .next t ∧ step { s with commands := w :: ws } = .next t

/-- R79: a command ends with exactly one response, OK or the one error its word raises; its data is the word read when the
command is a `read` that succeeded, and 0 in every other case; as bits it is the status above the data. -/
def Obligations.ResponseDataIsTheWordReadOrZero : Prop :=
  (∀ (s : State) (w : Command) (ws : List Command), s.commands = w :: ws →
    ∃ t r, step s = .next t ∧ t.response = some r ∧ r.status = wordStatus w ∧
      (∀ addr reg, decode w = .command (.read addr) → regAt addr = some reg → r = ⟨.ok, s.regs.get reg⟩) ∧
      ((∀ addr reg, decode w = .command (.read addr) → regAt addr ≠ some reg) → r.data = 0)) ∧
  (∀ r : Response, r.bits = r.status.code ++ r.data)

/-! ## The lifecycle and reset -/

/-- R38: `configured` is 0 after reset; a step ends with it 1 exactly when it was 1 or the step executed an `init_uart` that
answered OK; and no command's behaviour depends on it. -/
def Obligations.ConfiguredFollowsInitUartAlone : Prop :=
  (∀ image : Vector Word 7, (State.resetWith image).configured = false) ∧
  (∀ s t : State, step s = .next t →
    (t.configured = true ↔ s.configured = true ∨
      ∃ w ws i, s.commands = w :: ws ∧ decode w = .command i ∧ i.isInit = true ∧ t.response = some ⟨.ok, 0⟩)) ∧
  (∀ (s t : State) (c : Bool), step s = .next t →
    ∃ u, step { s with configured := c } = .next u ∧ u.regs = t.regs ∧ u.response = t.response ∧
      u.commands = t.commands)

/-- R173: reset is the only way back to unconfigured: reset is one, and from a configured block no run reaches an unconfigured
one. -/
def Obligations.OnlyResetUnconfigures : Prop :=
  State.reset.configured = false ∧
  ∀ (n : Nat) (s t : State), s.configured = true → Host.Core.run core n s = .next t → t.configured = true

/-- As long as the host presents no `write` to a register the encoder uses, a configured block holds a legal configuration:
every step, whichever command it executes, keeps this (the converse of 70_reset_and_hazards.md R178; it rests on R25, R28,
R31 and the end state of `init_uart`). -/
def Obligations.StepsKeepAConfiguredBlockLegal : Prop :=
  ∀ s t : State, s.ConfiguredIsLegal → step s = .next t → t.ConfiguredIsLegal

/-- The invariant of `StepsKeepAConfiguredBlockLegal` holds after reset, for every `RESET_IMAGE`. -/
def Obligations.ConfiguredIsLegalAtReset : Prop :=
  (∀ image : Vector Word 7, (State.resetWith image).ConfiguredIsLegal) ∧ State.reset.ConfiguredIsLegal

/-- R62: nothing but a command changes the register block, and what a command does or answers is a function of the reset
contents and of the earlier commands alone: two runs over the same registers and the same commands agree at every step, whatever
`configured` and the old response were. -/
def Obligations.BlockFollowsCommandsAlone : Prop :=
  (∀ s t : State, s.commands = [] → step s = .next t → t.regs = s.regs) ∧
  (∀ (n : Nat) (s s' t : State), s.regs = s'.regs → s.commands = s'.commands → Host.Core.run core (n + 1) s = .next t →
    ∃ t', Host.Core.run core (n + 1) s' = .next t' ∧ t'.regs = t.regs ∧ t'.commands = t.commands ∧
      t'.response = t.response)

/-- R170, R171 and R172: after reset the seven registers hold `RESET_IMAGE` in offset order, for every `RESET_IMAGE`
(decision D11), `configured` is 0, no command is in flight and no response is pending; and the first command presented is
executed like any other. -/
def Obligations.ResetLeavesTheResetImage : Prop :=
  (∀ (image : Vector Word 7),
    (State.resetWith image).regs.get .rsvd0 = image[0] ∧ (State.resetWith image).regs.get .brr = image[1] ∧
    (State.resetWith image).regs.get .ter = image[2] ∧ (State.resetWith image).regs.get .rer = image[3] ∧
    (State.resetWith image).regs.get .ier = image[4] ∧ (State.resetWith image).regs.get .tdr = image[5] ∧
    (State.resetWith image).regs.get .rdr = image[6] ∧
    (State.resetWith image).configured = false ∧ (State.resetWith image).commands = [] ∧
    (State.resetWith image).response = none) ∧
  State.reset = State.resetWith Config.resetImage ∧
  (∀ (image : Vector Word 7) (i : Instr),
    step (presentCommand (State.resetWith image) (encode i)) = exec i (State.resetWith image))

/-! ## The block and its ports -/

/-- The block is the eight components of 10_state.md R22 and no more: what a presented word does is a function of the word and the
block alone, its response goes to the host, and a word that fails leaves the block as it was, with no trace of the error (R41). That
the host's side stands beside the block in State is the model's choice, log entry 1. -/
def Obligations.StepIsTheBlocksExecution : Prop :=
  (∀ (s : State) (w : Command) (ws : List Command), s.commands = w :: ws →
    step s = .next {
      toBlock := (Block.execute w s.toBlock).2
      commands := ws
      response := some (Block.execute w s.toBlock).1 }) ∧
  (∀ (b : Block) (w : Command) (e : CommandError),
    (Block.execute w b).1.status = .error e → (Block.execute w b).2 = b)

/-- R159: from every state every word, legal or not, can be presented and ends with a response, and after the response the next
word is accepted and answered in the same way. The word is presented on the port of log entry 1. -/
def Obligations.EveryWordIsAnsweredFromEveryState : Prop :=
  ∀ (s : State) (w : Command), ∃ t r,
    step (presentCommand s w) = .next t ∧ t.response = some r ∧ t.commands = s.commands ∧
    ∀ w' : Command, ∃ u r', step (presentCommand t w') = .next u ∧ u.response = some r' ∧ u.commands = s.commands
end

