-- ==== Sys2Proof/Laws/PerInstr.lean ====
section
/-! SUPPORT. The family EncodeHitsOwnPattern: a command's word hits the row of the match and mask table that belongs to the
command (30_encoding.md R74). -/

namespace Sys2Proof.Laws

/-- The bitwise and of two words cut alike, field by field (format F). -/
theorem and_append_seven {a b c d e f g : Nat} (v₁ w₁ : BitVec a) (v₂ w₂ : BitVec b) (v₃ w₃ : BitVec c)
    (v₄ w₄ : BitVec d) (v₅ w₅ : BitVec e) (v₆ w₆ : BitVec f) (v₇ w₇ : BitVec g) :
    (v₁ ++ v₂ ++ v₃ ++ v₄ ++ v₅ ++ v₆ ++ v₇) &&& (w₁ ++ w₂ ++ w₃ ++ w₄ ++ w₅ ++ w₆ ++ w₇) =
      (v₁ &&& w₁) ++ (v₂ &&& w₂) ++ (v₃ &&& w₃) ++ (v₄ &&& w₄) ++ (v₅ &&& w₅) ++ (v₆ &&& w₆) ++ (v₇ &&& w₇) := by
  simp only [BitVec.and_append]

/-- Format F under a mask of format F: field by field. -/
theorem formatF_and (op op' : BitVec 4) (stop stop' : BitVec 8) (flow flow' : BitVec 1) (par par' : BitVec 2)
    (baud baud' : BitVec 32) (m1 : BitVec 12) (m2 : BitVec 5) :
    formatF op stop flow par baud &&& (op' ++ m1 ++ stop' ++ m2 ++ flow' ++ par' ++ baud' : BitVec 64) =
      formatF (op &&& op') (stop &&& stop') (flow &&& flow') (par &&& par') (baud &&& baud') := by
  have h := and_append_seven op op' 0#12 m1 stop stop' 0#5 m2 flow flow' par par' baud baud'
  rw [BitVec.zero_and, BitVec.zero_and] at h
  exact h

/-- Format A under a mask of format A: field by field. -/
theorem formatA_and (op op' : BitVec 4) (addr addr' : Addr) (data data' : Word) :
    formatA op addr data &&& (op' ++ addr' ++ data' : BitVec 64) =
      formatA (op &&& op') (addr &&& addr') (data &&& data') := by
  have h : (op ++ addr ++ data) &&& (op' ++ addr' ++ data') = (op &&& op') ++ (addr &&& addr') ++ (data &&& data') := by
    simp only [BitVec.and_append]
  exact h

end Sys2Proof.Laws

namespace Sys2Proof.Laws.EncodeHitsOwnPattern

/-- The command's word is its own row's: `w & mask == match`. -/
def Statement (i : Instr) : Prop := i.pattern.hits (encode i) = true

theorem setBaudRate (baud : BitVec 32) : Statement (.setBaudRate baud) :=
  decide_eq_true ((formatF_and 0x1 0xF 0 0xFF 0 1 0 3 baud 0 0xFFF 0x1F).trans (by simp; rfl))

theorem setParity (par : BitVec 2) : Statement (.setParity par) :=
  decide_eq_true ((formatF_and 0x2 0xF 0 0xFF 0 1 par 0 0 0xFFFFFFFF 0xFFF 0x1F).trans (by simp; rfl))

theorem enableHwFlowControl (flow : BitVec 1) : Statement (.enableHwFlowControl flow) :=
  decide_eq_true ((formatF_and 0x3 0xF 0 0xFF flow 0 0 3 0 0xFFFFFFFF 0xFFF 0x1F).trans (by simp; rfl))

theorem setStopBits (stop : BitVec 8) : Statement (.setStopBits stop) :=
  decide_eq_true ((formatF_and 0x4 0xF stop 0 0 1 0 3 0 0xFFFFFFFF 0xFFF 0x1F).trans (by simp; rfl))

theorem initUart (baud : BitVec 32) (par : BitVec 2) (flow : BitVec 1) (stop : BitVec 8) :
    Statement (.initUart baud par flow stop) :=
  decide_eq_true ((formatF_and 0x5 0xF stop 0 flow 0 par 0 baud 0 0xFFF 0x1F).trans (by simp; rfl))

theorem read (addr : Addr) : Statement (.read addr) :=
  decide_eq_true ((formatA_and 0x6 0xF addr 0 0 0xFFFFFFFF).trans (by simp; rfl))

theorem write (addr : Addr) (data : Word) : Statement (.write addr data) :=
  decide_eq_true ((formatA_and 0x7 0xF addr 0 data 0).trans (by simp; rfl))

end Sys2Proof.Laws.EncodeHitsOwnPattern
end

