-- ==== Sys2Proof/Laws/Encoding.lean ====
section
/-! SUPPORT. The bits of the two formats and of the fields, so that no later proof meets the concatenations themselves. -/

namespace Sys2Proof.Laws

/-- The bits of a word cut in seven, from the lowest part up. -/
theorem getLsbD_append_seven {a b c d e f g : Nat} (v₁ : BitVec a) (v₂ : BitVec b) (v₃ : BitVec c) (v₄ : BitVec d)
    (v₅ : BitVec e) (v₆ : BitVec f) (v₇ : BitVec g) (k : Nat) :
    (v₁ ++ v₂ ++ v₃ ++ v₄ ++ v₅ ++ v₆ ++ v₇).getLsbD k =
      if k < g then v₇.getLsbD k
      else if k - g < f then v₆.getLsbD (k - g)
      else if k - g - f < e then v₅.getLsbD (k - g - f)
      else if k - g - f - e < d then v₄.getLsbD (k - g - f - e)
      else if k - g - f - e - d < c then v₃.getLsbD (k - g - f - e - d)
      else if k - g - f - e - d - c < b then v₂.getLsbD (k - g - f - e - d - c)
      else v₁.getLsbD (k - g - f - e - d - c - b) := by
  simp only [BitVec.getLsbD_append]

/-- The bits of a word cut in three, from the lowest part up. -/
theorem getLsbD_append_three {a b c : Nat} (v₁ : BitVec a) (v₂ : BitVec b) (v₃ : BitVec c) (k : Nat) :
    (v₁ ++ v₂ ++ v₃).getLsbD k =
      if k < c then v₃.getLsbD k else if k - c < b then v₂.getLsbD (k - c) else v₁.getLsbD (k - c - b) := by
  simp only [BitVec.getLsbD_append]

/-- The bits of a format F word (30_encoding.md R72). -/
theorem getLsbD_formatF (op : BitVec 4) (stop : BitVec 8) (flow : BitVec 1) (par : BitVec 2) (baud : BitVec 32) (k : Nat) :
    (formatF op stop flow par baud).getLsbD k =
      if k < 32 then baud.getLsbD k
      else if k < 34 then par.getLsbD (k - 32)
      else if k < 35 then flow.getLsbD (k - 34)
      else if k < 40 then false
      else if k < 48 then stop.getLsbD (k - 40)
      else if k < 60 then false
      else op.getLsbD (k - 60) := by
  have h := getLsbD_append_seven op 0#12 stop 0#5 flow par baud k
  refine Eq.trans h ?_
  simp only [BitVec.getLsbD_zero, Nat.sub_sub]
  split_ifs <;> first | rfl | omega

/-- The bits of a format A word (30_encoding.md R73). -/
theorem getLsbD_formatA (op : BitVec 4) (addr : Addr) (data : Word) (k : Nat) :
    (formatA op addr data).getLsbD k =
      if k < 32 then data.getLsbD k else if k < 60 then addr.getLsbD (k - 32) else op.getLsbD (k - 60) := by
  refine Eq.trans (getLsbD_append_three op addr data k) ?_
  simp only [Nat.sub_sub]
  split_ifs <;> first | rfl | omega

/-- A field of a word, bit by bit. -/
theorem field_eq {n m : Nat} (w : BitVec n) (lo : Nat) (v : BitVec m) (h : ∀ k, k < m → w.getLsbD (lo + k) = v.getLsbD k) :
    w.extractLsb' lo m = v := by
  apply BitVec.eq_of_getLsbD_eq
  intro k hk
  rw [BitVec.getLsbD_extractLsb', h k hk]
  simp [hk]

@[simp] theorem baudField_formatF (op : BitVec 4) (stop : BitVec 8) (flow : BitVec 1) (par : BitVec 2)
    (baud : BitVec 32) : baudField (formatF op stop flow par baud) = baud :=
  field_eq _ _ _ fun k hk => by rw [getLsbD_formatF]; simp [hk]

@[simp] theorem parField_formatF (op : BitVec 4) (stop : BitVec 8) (flow : BitVec 1) (par : BitVec 2)
    (baud : BitVec 32) : parField (formatF op stop flow par baud) = par :=
  field_eq _ _ _ fun k hk => by
    rw [getLsbD_formatF, if_neg (by omega), if_pos (by omega)]
    congr 1
    omega

@[simp] theorem flowField_formatF (op : BitVec 4) (stop : BitVec 8) (flow : BitVec 1) (par : BitVec 2)
    (baud : BitVec 32) : flowField (formatF op stop flow par baud) = flow :=
  field_eq _ _ _ fun k hk => by
    rw [getLsbD_formatF, if_neg (by omega), if_neg (by omega), if_pos (by omega)]
    congr 1
    omega

@[simp] theorem stopField_formatF (op : BitVec 4) (stop : BitVec 8) (flow : BitVec 1) (par : BitVec 2)
    (baud : BitVec 32) : stopField (formatF op stop flow par baud) = stop :=
  field_eq _ _ _ fun k hk => by
    rw [getLsbD_formatF, if_neg (by omega), if_neg (by omega), if_neg (by omega), if_neg (by omega), if_pos (by omega)]
    congr 1
    omega

@[simp] theorem dataField_formatA (op : BitVec 4) (addr : Addr) (data : Word) :
    dataField (formatA op addr data) = data :=
  field_eq _ _ _ fun k hk => by rw [getLsbD_formatA]; simp [hk]

@[simp] theorem addrField_formatA (op : BitVec 4) (addr : Addr) (data : Word) :
    addrField (formatA op addr data) = addr :=
  field_eq _ _ _ fun k hk => by
    rw [getLsbD_formatA, if_neg (by omega), if_pos (by omega)]
    congr 1
    omega

/-- A word is its seven format F fields. -/
theorem eq_fields_formatF (w : Command) :
    w = opField w ++ mbz2Field w ++ stopField w ++ mbz1Field w ++ flowField w ++ parField w ++ baudField w := by
  apply BitVec.eq_of_getLsbD_eq
  intro k hk
  refine Eq.trans ?_
    (getLsbD_append_seven (opField w) (mbz2Field w) (stopField w) (mbz1Field w) (flowField w) (parField w)
      (baudField w) k).symm
  simp only [opField, mbz2Field, stopField, mbz1Field, flowField, parField, baudField, BitVec.getLsbD_extractLsb',
    Nat.sub_sub]
  split_ifs <;> (rw [decide_eq_true (by omega), Bool.true_and]; congr 1; omega)

/-- A word is its three format A fields. -/
theorem eq_fields_formatA (w : Command) : w = opField w ++ addrField w ++ dataField w := by
  apply BitVec.eq_of_getLsbD_eq
  intro k hk
  refine Eq.trans ?_ (getLsbD_append_three (opField w) (addrField w) (dataField w) k).symm
  simp only [opField, addrField, dataField, BitVec.getLsbD_extractLsb', Nat.sub_sub]
  split_ifs <;> (rw [decide_eq_true (by omega), Bool.true_and]; congr 1; omega)

/-! ## When a word hits a row of R74, field by field -/

/-- Two words cut alike are equal when their parts are. -/
theorem append_inj_right {a b : Nat} (v₁ w₁ : BitVec a) (v₂ w₂ : BitVec b) : v₁ ++ v₂ = w₁ ++ w₂ ↔ v₁ = w₁ ∧ v₂ = w₂ := by
  constructor
  · intro h
    have hk := fun k => congrArg (fun v => BitVec.getLsbD v k) h
    simp only [BitVec.getLsbD_append] at hk
    constructor <;> apply BitVec.eq_of_getLsbD_eq <;> intro k hlt
    · simpa using hk (k + b)
    · simpa [hlt] using hk k
  · rintro ⟨rfl, rfl⟩
    rfl

/-- A word hits a row exactly when each of its seven format F fields does. -/
theorem hits_iff_fields (p : Pattern) (w : Command) (o o' : BitVec 4) (m₂ : BitVec 12) (st : BitVec 8) (m₁ : BitVec 5)
    (fl : BitVec 1) (pa : BitVec 2) (ba : BitVec 32) (hm : p.mask = o' ++ m₂ ++ st ++ m₁ ++ fl ++ pa ++ ba)
    (hf : p.fixed = o ++ 0#12 ++ 0#8 ++ 0#5 ++ 0#1 ++ 0#2 ++ 0#32) :
    p.hits w = true ↔
      opField w &&& o' = o ∧ mbz2Field w &&& m₂ = 0 ∧ stopField w &&& st = 0 ∧ mbz1Field w &&& m₁ = 0 ∧
        flowField w &&& fl = 0 ∧ parField w &&& pa = 0 ∧ baudField w &&& ba = 0 := by
  unfold Pattern.hits
  rw [decide_eq_true_iff, hm, hf]
  conv_lhs => rw [eq_fields_formatF w]
  have h := and_append_seven (opField w) o' (mbz2Field w) m₂ (stopField w) st (mbz1Field w) m₁ (flowField w) fl
    (parField w) pa (baudField w) ba
  refine Iff.trans (b := (opField w &&& o') ++ (mbz2Field w &&& m₂) ++ (stopField w &&& st) ++ (mbz1Field w &&& m₁) ++
    (flowField w &&& fl) ++ (parField w &&& pa) ++ (baudField w &&& ba) =
      o ++ 0#12 ++ 0#8 ++ 0#5 ++ 0#1 ++ 0#2 ++ 0#32) ?_ ?_
  · rw [← h]
  · simp only [append_inj_right, and_assoc]
    exact Iff.rfl

/-- A mask of all ones keeps a field. -/
theorem and_ones {n : Nat} (v m : BitVec n) (h : m = BitVec.allOnes n) : v &&& m = v := by
  subst h
  simp

theorem setBaudRatePattern_hits (w : Command) : setBaudRatePattern.hits w = true ↔
    opField w = 1 ∧ mbz2Field w = 0 ∧ stopField w = 0 ∧ mbz1Field w = 0 ∧ flowField w = 0 ∧ parField w = 0 := by
  rw [hits_iff_fields _ w 1 0xF 0xFFF 0xFF 0x1F 1 3 0 (by decide) (by decide)]
  simp [and_ones]

theorem setParityPattern_hits (w : Command) : setParityPattern.hits w = true ↔
    opField w = 2 ∧ mbz2Field w = 0 ∧ stopField w = 0 ∧ mbz1Field w = 0 ∧ flowField w = 0 ∧ baudField w = 0 := by
  rw [hits_iff_fields _ w 2 0xF 0xFFF 0xFF 0x1F 1 0 0xFFFFFFFF (by decide) (by decide)]
  simp [and_ones]

theorem enableHwFlowControlPattern_hits (w : Command) : enableHwFlowControlPattern.hits w = true ↔
    opField w = 3 ∧ mbz2Field w = 0 ∧ stopField w = 0 ∧ mbz1Field w = 0 ∧ parField w = 0 ∧ baudField w = 0 := by
  rw [hits_iff_fields _ w 3 0xF 0xFFF 0xFF 0x1F 0 3 0xFFFFFFFF (by decide) (by decide)]
  simp [and_ones]

theorem setStopBitsPattern_hits (w : Command) : setStopBitsPattern.hits w = true ↔
    opField w = 4 ∧ mbz2Field w = 0 ∧ mbz1Field w = 0 ∧ flowField w = 0 ∧ parField w = 0 ∧ baudField w = 0 := by
  rw [hits_iff_fields _ w 4 0xF 0xFFF 0 0x1F 1 3 0xFFFFFFFF (by decide) (by decide)]
  simp [and_ones]

theorem initUartPattern_hits (w : Command) : initUartPattern.hits w = true ↔
    opField w = 5 ∧ mbz2Field w = 0 ∧ mbz1Field w = 0 := by
  rw [hits_iff_fields _ w 5 0xF 0xFFF 0 0x1F 0 0 0 (by decide) (by decide)]
  simp [and_ones]

theorem readPattern_hits (w : Command) : readPattern.hits w = true ↔ opField w = 6 ∧ dataField w = 0 := by
  rw [hits_iff_fields _ w 6 0xF 0 0 0 0 0 0xFFFFFFFF (by decide) (by decide)]
  simp [and_ones, dataField, baudField]

theorem writePattern_hits (w : Command) : writePattern.hits w = true ↔ opField w = 7 := by
  rw [hits_iff_fields _ w 7 0xF 0 0 0 0 0 0 (by decide) (by decide)]
  simp [and_ones]


/-! ## The encoding as each command's rule writes it -/

/-- Format F as an or of shifted operands (41_init.md R120). -/
theorem formatF_eq_or (op : BitVec 4) (stop : BitVec 8) (flow : BitVec 1) (par : BitVec 2) (baud : BitVec 32) :
    formatF op stop flow par baud =
      (op.setWidth 64 <<< 60) ||| (stop.setWidth 64 <<< 40) ||| (flow.setWidth 64 <<< 34) ||| (par.setWidth 64 <<< 32) |||
        baud.setWidth 64 := by
  have z : ∀ {n : Nat} (v : BitVec n) (m : Nat), n ≤ m → v.getLsbD m = false := fun v m h => BitVec.getLsbD_of_ge v m h
  apply BitVec.eq_of_getLsbD_eq
  intro k hk
  simp only [getLsbD_formatF, BitVec.getLsbD_or, BitVec.getLsbD_shiftLeft, BitVec.getLsbD_setWidth, hk, decide_true,
    Bool.true_and]
  rcases Nat.lt_or_ge k 32 with h | h
  · simp [show k < 60 by omega, show k < 40 by omega, show k < 34 by omega, h]
  rcases Nat.lt_or_ge k 34 with h₂ | h₂
  · simp [show k < 60 by omega, show k < 40 by omega, Nat.not_lt.mpr h, h₂, z baud k h, show k - 32 < 64 by omega]
  have zp := z par (k - 32) (by omega)
  rcases Nat.lt_or_ge k 35 with h₃ | h₃
  · simp [show k < 60 by omega, show k < 40 by omega, Nat.not_lt.mpr h, Nat.not_lt.mpr h₂, h₃, z baud k h, zp,
      show k - 34 < 64 by omega]
  have zf := z flow (k - 34) (by omega)
  rcases Nat.lt_or_ge k 40 with h₄ | h₄
  · simp [show k < 60 by omega, h₄, Nat.not_lt.mpr h, Nat.not_lt.mpr h₂, Nat.not_lt.mpr h₃, z baud k h, zp, zf]
  rcases Nat.lt_or_ge k 48 with h₅ | h₅
  · simp [show k < 60 by omega, h₅, Nat.not_lt.mpr h, Nat.not_lt.mpr h₂, Nat.not_lt.mpr h₃, Nat.not_lt.mpr h₄, z baud k h,
      zp, zf, show k - 40 < 64 by omega]
  have zs := z stop (k - 40) (by omega)
  rcases Nat.lt_or_ge k 60 with h₆ | h₆
  · simp [h₆, Nat.not_lt.mpr h, Nat.not_lt.mpr h₂, Nat.not_lt.mpr h₃, Nat.not_lt.mpr h₄, Nat.not_lt.mpr h₅, z baud k h, zp,
      zf, zs]
  · simp [Nat.not_lt.mpr h₆, Nat.not_lt.mpr h, Nat.not_lt.mpr h₂, Nat.not_lt.mpr h₃, Nat.not_lt.mpr h₄, Nat.not_lt.mpr h₅,
      z baud k h, zp, zf, zs, show k - 60 < 64 by omega]

/-- Format A as an or of shifted operands (42_access.md R131). -/
theorem formatA_eq_or (op : BitVec 4) (addr : Addr) (data : Word) :
    formatA op addr data = (op.setWidth 64 <<< 60) ||| (addr.setWidth 64 <<< 32) ||| data.setWidth 64 := by
  have z : ∀ {n : Nat} (v : BitVec n) (m : Nat), n ≤ m → v.getLsbD m = false := fun v m h => BitVec.getLsbD_of_ge v m h
  apply BitVec.eq_of_getLsbD_eq
  intro k hk
  simp only [getLsbD_formatA, BitVec.getLsbD_or, BitVec.getLsbD_shiftLeft, BitVec.getLsbD_setWidth, hk, decide_true,
    Bool.true_and]
  rcases Nat.lt_or_ge k 32 with h | h
  · simp [show k < 60 by omega, h]
  rcases Nat.lt_or_ge k 60 with h₂ | h₂
  · simp [h₂, Nat.not_lt.mpr h, z data k h, show k - 32 < 64 by omega]
  · simp [Nat.not_lt.mpr h₂, Nat.not_lt.mpr h, z data k h, show k - 60 < 64 by omega, z addr (k - 32) (by omega)]

end Sys2Proof.Laws
end

