-- ==== Sys2Proof/Laws/State.lean ====
section
/-! SUPPORT. One lemma per field per update of the state, so that no later proof unfolds a record update. -/

namespace Sys2Proof.Machine

@[simp] theorem resetWith_regs_get (image : Vector Word 7) :
    (State.resetWith image).regs = ⟨image[0], image[1], image[2], image[3], image[4], image[5], image[6]⟩ := rfl
@[simp] theorem resetWith_configured (image : Vector Word 7) : (State.resetWith image).configured = false := rfl
@[simp] theorem resetWith_commands (image : Vector Word 7) : (State.resetWith image).commands = [] := rfl
@[simp] theorem resetWith_response (image : Vector Word 7) : (State.resetWith image).response = none := rfl

@[simp] theorem stayAsConfigured_eq (b : Block) : stayAsConfigured b = b := rfl

@[simp] theorem becomeConfigured_regs (b : Block) : (becomeConfigured b).regs = b.regs := rfl
@[simp] theorem becomeConfigured_configured (b : Block) : (becomeConfigured b).configured = true := rfl

/-- Handing a response over gives the block its new contents, the host the response, and leaves the words still to present. -/
theorem handOver_eq (r : Response × Block) (s : State) :
    handOver r s = .next { s with toBlock := r.2, response := some r.1 } := rfl

@[simp] theorem presentCommand_regs (s : State) (w : Command) : (presentCommand s w).regs = s.regs := rfl
@[simp] theorem presentCommand_toBlock (s : State) (w : Command) : (presentCommand s w).toBlock = s.toBlock := rfl
@[simp] theorem presentCommand_configured (s : State) (w : Command) :
    (presentCommand s w).configured = s.configured := rfl
@[simp] theorem presentCommand_commands (s : State) (w : Command) :
    (presentCommand s w).commands = w :: s.commands := rfl
@[simp] theorem presentCommand_response (s : State) (w : Command) : (presentCommand s w).response = s.response := rfl

/-- A register reads back what was written to it (10_state.md R39). -/
@[simp] theorem get_set_same (b : RegBlock) (r : Reg) (v : Word) : (b.set r v).get r = v := by
  cases r <;> rfl

/-- A write changes no other register (20_memory.md R55). -/
theorem get_set_other (b : RegBlock) (r r' : Reg) (v : Word) (h : r' ≠ r) : (b.set r v).get r' = b.get r' := by
  cases r <;> cases r' <;> first | rfl | exact absurd rfl h

/-- Two register blocks with the same seven words are the same. -/
theorem regBlock_ext (a b : RegBlock) (h : ∀ r, a.get r = b.get r) : a = b := by
  cases a
  cases b
  have h0 := h .rsvd0
  have h1 := h .brr
  have h2 := h .ter
  have h3 := h .rer
  have h4 := h .ier
  have h5 := h .tdr
  have h6 := h .rdr
  simp_all [RegBlock.get]

@[simp] theorem get_rsvd0 (b : RegBlock) : b.get .rsvd0 = b.rsvd0 := rfl
@[simp] theorem get_brr (b : RegBlock) : b.get .brr = b.brr := rfl
@[simp] theorem get_ter (b : RegBlock) : b.get .ter = b.ter := rfl
@[simp] theorem get_rer (b : RegBlock) : b.get .rer = b.rer := rfl
@[simp] theorem get_ier (b : RegBlock) : b.get .ier = b.ier := rfl
@[simp] theorem get_tdr (b : RegBlock) : b.get .tdr = b.tdr := rfl
@[simp] theorem get_rdr (b : RegBlock) : b.get .rdr = b.rdr := rfl

@[simp] theorem set_rsvd0 (b : RegBlock) (v : Word) : b.set .rsvd0 v = { b with rsvd0 := v } := rfl
@[simp] theorem set_brr (b : RegBlock) (v : Word) : b.set .brr v = { b with brr := v } := rfl
@[simp] theorem set_ter (b : RegBlock) (v : Word) : b.set .ter v = { b with ter := v } := rfl
@[simp] theorem set_rer (b : RegBlock) (v : Word) : b.set .rer v = { b with rer := v } := rfl
@[simp] theorem set_ier (b : RegBlock) (v : Word) : b.set .ier v = { b with ier := v } := rfl
@[simp] theorem set_tdr (b : RegBlock) (v : Word) : b.set .tdr v = { b with tdr := v } := rfl
@[simp] theorem set_rdr (b : RegBlock) (v : Word) : b.set .rdr v = { b with rdr := v } := rfl

end Sys2Proof.Machine
end

