-- ==== Sys2Proof/Laws/Ops.lean ====
section
/-! SUPPORT. One lemma per shared operation that says once everything it can do. -/

namespace Sys2Proof.Machine

/-- Every offset is below 28. -/
theorem offset_lt (r : Reg) : r.offset < 28 := by cases r <;> decide

/-- No two registers share an offset (20_memory.md R51). -/
theorem offset_inj (r r' : Reg) (h : r.offset = r'.offset) : r = r' := by
  cases r <;> cases r' <;> first | rfl | exact absurd h (by decide)

theorem mem_allRegs (r : Reg) : r ∈ allRegs := by cases r <;> decide

/-- The address check, in both directions (20_memory.md R53). -/
theorem regAt_eq_some (a : Addr) (r : Reg) : regAt a = some r ↔ a.toNat = r.offset := by
  unfold regAt
  constructor
  · intro h
    have := List.find?_some h
    simpa using (beq_iff_eq.mp this).symm
  · intro h
    cases hf : allRegs.find? (fun r => r.offset == a.toNat) with
    | none =>
        have := List.find?_eq_none.mp hf r (mem_allRegs r)
        simp [h] at this
    | some r' =>
        have hr : (r'.offset == a.toNat) = true := List.find?_some (p := fun r : Reg => r.offset == a.toNat) hf
        rw [offset_inj r' r ((beq_iff_eq.mp hr).trans h)]

/-- The word of a register's own offset is accepted. -/
theorem regAt_offset (r : Reg) : regAt (BitVec.ofNat 28 r.offset) = some r := by
  cases r <;> decide

/-- No rate stands in two rows, so each row is what a lookup of its rate finds. -/
theorem baudCode_of_row : ∀ row ∈ baudTable, baudCode row.1 = some row.2 := by
  simp [baudTable, baudCode, List.lookup]

/-- The table has exactly the nine rates (10_state.md R27). -/
theorem baudCode_eq_some (b : BitVec 32) (c : BitVec 4) : baudCode b = some c ↔ (b, c) ∈ baudTable := by
  constructor
  · intro h
    obtain ⟨l₁, l₂, hl, -⟩ := List.lookup_eq_some_iff.mp h
    simp [hl]
  · exact baudCode_of_row (b, c)

/-- A refused plan leaves the block as it was and answers the error (60_exceptions.md R147). -/
@[simp] theorem carryOut_refuse (f : Block → Block) (e : CommandError) (b : Block) :
    (Plan.refuse e).carryOut f b = (⟨.error e, 0⟩, b) := rfl

/-- An accepted plan leaves what its accesses wrote and answers OK. -/
theorem carryOut_run (f : Block → Block) (as : List Access) (b : Block) :
    (Plan.run as).carryOut f b =
      (⟨.ok, (runAccesses registerBacking as (b.regs, 0)).2⟩,
        f { b with regs := (runAccesses registerBacking as (b.regs, 0)).1 }) := rfl

/-- A refused plan: the response is the error and nothing else changes (60_exceptions.md R147, R150). -/
@[simp] theorem perform_refuse (f : Block → Block) (e : CommandError) (s : State) :
    perform f (.refuse e) s = .next { s with response := some ⟨.error e, 0⟩ } := rfl

/-- An accepted plan: the accesses are made and the response is OK (30_encoding.md R79). -/
theorem perform_run (f : Block → Block) (as : List Access) (s : State) :
    perform f (.run as) s = .next { s with
      toBlock := f { s.toBlock with regs := (runAccesses registerBacking as (s.regs, 0)).1 }
      response := some ⟨.ok, (runAccesses registerBacking as (s.regs, 0)).2⟩ } := rfl

/-- Everything a command can do: it is refused and leaves all but the response as it was, or it runs its accesses. -/
theorem perform_cases (f : Block → Block) (p : Plan) (s t : State) (h : perform f p s = .next t) :
    (∃ e, p = .refuse e ∧ t = { s with response := some ⟨.error e, 0⟩ }) ∨
    (∃ as, p = .run as ∧ t = { s with
      toBlock := f { s.toBlock with regs := (runAccesses registerBacking as (s.regs, 0)).1 }
      response := some ⟨.ok, (runAccesses registerBacking as (s.regs, 0)).2⟩ }) := by
  cases p with
  | refuse e =>
      rw [perform_refuse] at h
      injection h with h
      exact .inl ⟨e, rfl, h.symm⟩
  | run as =>
      rw [perform_run] at h
      injection h with h
      exact .inr ⟨as, rfl, h.symm⟩

/-- Executing a command is carrying out its plan; only `init_uart` has a completion of its own (10_state.md R38). -/
theorem exec_eq_perform (i : Instr) (s : State) :
    exec i s = perform (if i.isInit then becomeConfigured else stayAsConfigured) (planOf i) s := by
  cases i <;> rfl

/-- What a step does: it idles, or it executes the word's command, or it refuses the word as illegal. -/
theorem step_cases (s : State) :
    (s.commands = [] ∧ step s = .next { s with response := none }) ∨
    (∃ w ws i, s.commands = w :: ws ∧ decode w = .command i ∧ step s = exec i { s with commands := ws }) ∨
    (∃ w ws why, s.commands = w :: ws ∧ decode w = .illegal why ∧
      step s = .next { s with commands := ws, response := some ⟨.error .illegalCommand, 0⟩ }) := by
  cases hc : s.commands with
  | nil => exact .inl ⟨rfl, by simp [step, takeCommand, hc, idle]⟩
  | cons w ws =>
      cases hd : decode w with
      | command i => exact .inr (.inl ⟨w, ws, i, rfl, hd, by simp [step, takeCommand, hc, hd]⟩)
      | illegal why =>
          exact .inr (.inr ⟨w, ws, why, rfl, hd, by
            simp [step, takeCommand, hc, hd, illegalWord, handOver, raiseError, respond]⟩)

/-- The register block is a lawful backing (20_memory.md R55, R57). -/
theorem registerBacking_lawful : registerBacking.Lawful where
  read_write_same := get_set_same
  read_write_other := get_set_other

end Sys2Proof.Machine
end

