-- ==== Sys2Proof/Laws/Plans.lean ====
section
/-! SUPPORT. One lemma per plan and case: which operands a command accepts, what accesses it then makes, and what making one
access does to the machine. -/

namespace Sys2Proof.Machine

theorem parityOk_iff (par : BitVec 2) : parityOk par = true ↔ par ≠ 3#2 := by simp [parityOk]

theorem stopOk_iff (stop : BitVec 8) : stopOk stop = true ↔ stop ≤ 15#8 := by simp [stopOk]

theorem setBaudRatePlan_some (baud : BitVec 32) (c : BitVec 4) (h : baudCode baud = some c) :
    setBaudRatePlan baud = .run [.setField .brr baudMask (fieldImage c baudPos)] := by simp [setBaudRatePlan, h]

theorem setBaudRatePlan_none (baud : BitVec 32) (h : baudCode baud = none) :
    setBaudRatePlan baud = .refuse .unsupportedBaudRate := by simp [setBaudRatePlan, h]

theorem setParityPlan_ok (par : BitVec 2) (h : par ≠ 3#2) :
    setParityPlan par = .run [.setField .brr parityMask (fieldImage par parityPos)] :=
  if_pos ((parityOk_iff par).mpr h)

theorem setParityPlan_bad : setParityPlan 3#2 = .refuse .invalidParityCode := rfl

theorem setStopBitsPlan_ok (stop : BitVec 8) (h : stop ≤ 15#8) :
    setStopBitsPlan stop = .run [.setField .brr stopMask (fieldImage stop stopPos)] :=
  if_pos ((stopOk_iff stop).mpr h)

theorem setStopBitsPlan_bad (stop : BitVec 8) (h : 15#8 < stop) : setStopBitsPlan stop = .refuse .invalidFieldValue :=
  if_neg fun hs => absurd ((stopOk_iff stop).mp hs) (BitVec.not_le.mpr h)

theorem initUartPlan_ok (baud : BitVec 32) (par : BitVec 2) (flow : BitVec 1) (stop : BitVec 8) (c : BitVec 4)
    (hb : baudCode baud = some c) (hp : par ≠ 3#2) (hs : stop ≤ 15#8) :
    initUartPlan baud par flow stop = .run (initUartAccesses c par flow stop) := by
  simp [initUartPlan, hb, (parityOk_iff par).mpr hp, (stopOk_iff stop).mpr hs]

theorem initUartPlan_badBaud (baud : BitVec 32) (par : BitVec 2) (flow : BitVec 1) (stop : BitVec 8)
    (hb : baudCode baud = none) : initUartPlan baud par flow stop = .refuse .unsupportedBaudRate := by
  simp [initUartPlan, hb]

theorem initUartPlan_badParity (baud : BitVec 32) (flow : BitVec 1) (stop : BitVec 8) (c : BitVec 4)
    (hb : baudCode baud = some c) : initUartPlan baud 3#2 flow stop = .refuse .invalidParityCode := by
  simp [initUartPlan, hb, parityOk]

theorem initUartPlan_badStop (baud : BitVec 32) (par : BitVec 2) (flow : BitVec 1) (stop : BitVec 8) (c : BitVec 4)
    (hb : baudCode baud = some c) (hp : par ≠ 3#2) (hs : 15#8 < stop) :
    initUartPlan baud par flow stop = .refuse .invalidFieldValue := by
  have h : stopOk stop = false := by simpa [stopOk] using BitVec.not_le.mpr hs
  simp [initUartPlan, hb, (parityOk_iff par).mpr hp, h]

theorem readPlan_some (addr : Addr) (r : Reg) (h : regAt addr = some r) : readPlan addr = .run [.load r] := by
  simp [readPlan, h]

theorem readPlan_none (addr : Addr) (h : regAt addr = none) : readPlan addr = .refuse .invalidAddress := by
  simp [readPlan, h]

theorem writePlan_some (addr : Addr) (data : Word) (r : Reg) (h : regAt addr = some r) :
    writePlan addr data = .run [.store r data] := by
  simp [writePlan, h]

theorem writePlan_none (addr : Addr) (data : Word) (h : regAt addr = none) :
    writePlan addr data = .refuse .invalidAddress := by
  simp [writePlan, h]

/-- Carrying out one masked field write (40_field_setters.md R100). -/
theorem perform_setField (r : Reg) (mask image : Word) (s : State) :
    perform stayAsConfigured (.run [.setField r mask image]) s =
      .next { s with
        regs := s.regs.set r (maskClearThenSet (s.regs.get r) mask image)
        response := some ⟨.ok, 0⟩ } := rfl

/-- Carrying out one load. -/
theorem perform_load (r : Reg) (s : State) :
    perform stayAsConfigured (.run [.load r]) s = .next { s with response := some ⟨.ok, s.regs.get r⟩ } := rfl

/-- Carrying out one store. -/
theorem perform_store (r : Reg) (v : Word) (s : State) :
    perform stayAsConfigured (.run [.store r v]) s =
      .next { s with regs := s.regs.set r v, response := some ⟨.ok, 0⟩ } := rfl

/-- The trace of one masked field write: one read, then one write. -/
theorem trace_setField (r : Reg) (mask image : Word) (b : RegBlock) :
    (Plan.run [.setField r mask image]).trace registerBacking b =
      [.read r (b.get r), .write r (maskClearThenSet (b.get r) mask image)] := rfl

/-- Executing a command, in terms of its plan: refused, or its accesses made, `configured` set when it is `init_uart`. -/
theorem exec_plan (i : Instr) (s : State) :
    (∃ e, planOf i = .refuse e ∧ exec i s = .next { s with response := some ⟨.error e, 0⟩ }) ∨
    (∃ as, planOf i = .run as ∧
      exec i s = .next { s with
        regs := (runAccesses registerBacking as (s.regs, 0)).1
        configured := s.configured || i.isInit
        response := some ⟨.ok, (runAccesses registerBacking as (s.regs, 0)).2⟩ }) := by
  rw [exec_eq_perform]
  cases planOf i with
  | refuse e => exact .inl ⟨e, rfl, rfl⟩
  | run as => exact .inr ⟨as, rfl, by cases i <;> simp [perform_run, Instr.isInit, becomeConfigured]⟩

/-- A step that has a word to execute, in terms of the word's plan. -/
theorem step_plan (s : State) (w : Command) (ws : List Command) (h : s.commands = w :: ws) :
    (∃ e, wordPlan w = .refuse e ∧
      step s = .next { s with commands := ws, response := some ⟨.error e, 0⟩ }) ∨
    (∃ as i, wordPlan w = .run as ∧ decode w = .command i ∧ planOf i = .run as ∧
      step s = .next { s with
        regs := (runAccesses registerBacking as (s.regs, 0)).1
        configured := s.configured || i.isInit
        commands := ws
        response := some ⟨.ok, (runAccesses registerBacking as (s.regs, 0)).2⟩ }) := by
  cases hd : decode w with
  | illegal why =>
      exact .inl ⟨.illegalCommand, by simp [wordPlan, hd], by
        simp [step, takeCommand, h, hd, illegalWord, handOver, raiseError, respond]⟩
  | command i =>
      have hs : step s = exec i { s with commands := ws } := by simp [step, takeCommand, h, hd]
      rcases exec_plan i { s with commands := ws } with ⟨e, hp, he⟩ | ⟨as, hp, he⟩
      · exact .inl ⟨e, by simp [wordPlan, hd, hp], hs.trans he⟩
      · exact .inr ⟨as, i, by simp [wordPlan, hd, hp], rfl, hp, hs.trans he⟩

/-- A step that has no word to execute. -/
theorem step_idle (s : State) (h : s.commands = []) : step s = .next { s with response := none } := by
  simp [step, takeCommand, h, idle]

/-- One step, then the others. -/
theorem run_succ (n : Nat) (s t : State) (h : step s = .next t) :
    Host.Core.run core (n + 1) s = Host.Core.run core n t := by
  have h' : core.step s = .next t := h
  simp only [Host.Core.run, h']

end Sys2Proof.Machine
end

