-- ==== Sys2Proof/Tests/Slice0.lean ====
section
/-! SUPPORT. Tests. Expected results are the vectors of 95_test_vectors.md (S1 to S10, D1 to D57, P1 to P5) or the examples of
the rules; each test names its source. Then, for each statement that has hypotheses, a witness that meets them. -/

namespace Sys2Proof.Tests

open Machine

/-! ## Helpers -/

/-- The state an outcome gives. -/
def nextOf (o : Host.Outcome State Fault Refusal) : Option State :=
  match o with
  | .next s => some s
  | .fault _ => none
  | .refused _ => none

/-- The start state of the vectors D28 to D37b, with a chosen BRR. -/
def block (brr : Word) : State where
  regs := ⟨0xA5A5A5A5, brr, 0x12345678, 0xFFFFFFFF, 0x00000001, 0xDEADBEEF, 0xCAFEF00D⟩
  configured := false
  commands := []
  response := none

/-- The start state of the vectors D38 to D49. -/
def ready : State where
  regs := ⟨0xA5A5A5A5, 0x00001026, 0x00800000, 0, 0x0000C000, 0, 0x00000055⟩
  configured := true
  commands := []
  response := none

/-- The state after the command word `w` is executed on `s`. -/
def after (s : State) (w : Command) : Option State := nextOf (step (presentCommand s w))

/-- BRR and the response after `w`. -/
def brrAfter (s : State) (w : Command) : Option (Word × Option Response) :=
  (after s w).map fun t => (t.regs.brr, t.response)

/-- `w` leaves the block as it was and is answered with the error. -/
def refusedWith (s : State) (w : Command) (e : CommandError) : Bool :=
  decide (after s w = some { s with response := some ⟨.error e, 0⟩ })

/-- The opcode is one of the seven and the word matches no row. -/
def strays (w : Command) : Bool := decide (0x1 ≤ opField w ∧ opField w ≤ 0x7 ∧ ∀ p ∈ patterns, p.hits w = false)

/-! ## Well-formedness: an ill-formed call for each check (30_encoding.md R85) -/

theorem test_wf_baud : (Call.setBaudRate 4294967296).wellFormed = false := by decide
theorem test_wf_parity : (Call.setParity 4).wellFormed = false := by decide
theorem test_wf_flow : (Call.enableHwFlowControl 2).wellFormed = false := by decide
theorem test_wf_stop : (Call.setStopBits 256).wellFormed = false := by decide
theorem test_wf_init_baud : (Call.initUart 4294967296 0 0 0).wellFormed = false := by decide
theorem test_wf_init_parity : (Call.initUart 4800 4 0 0).wellFormed = false := by decide
theorem test_wf_init_flow : (Call.initUart 4800 0 2 0).wellFormed = false := by decide
theorem test_wf_init_stop : (Call.initUart 4800 0 0 256).wellFormed = false := by decide
theorem test_wf_read : (Call.read 0x10000000).wellFormed = false := by decide
theorem test_wf_write_addr : (Call.write 0x10000000 0).wellFormed = false := by decide
theorem test_wf_write_word : (Call.write 0 0x100000000).wellFormed = false := by decide

/-- The largest operand of each kind is well formed (R85). -/
theorem test_wf_largest :
    (Call.initUart 4294967295 3 1 255).wellFormed = true ∧ (Call.write 0xFFFFFFF 0xFFFFFFFF).wellFormed = true := by
  decide

/-! ## Decoding: one word per command, from the vectors (or, for `write`, the example of R131) -/

theorem test_decode_set_baud_rate : decode 0x100000000001C200 = .command (.setBaudRate 115200) := by decide
theorem test_decode_set_parity : decode 0x2000000300000000 = .command (.setParity 3) := by decide
theorem test_decode_flow : decode 0x3000000400000000 = .command (.enableHwFlowControl 1) := by decide
theorem test_decode_set_stop_bits : decode 0x4000FF0000000000 = .command (.setStopBits 255) := by decide
theorem test_decode_init_uart : decode 0x5000020500002580 = .command (.initUart 9600 1 1 2) := by decide
theorem test_decode_read : decode 0x6FFFFFFF00000000 = .command (.read 0xFFFFFFF) := by decide
theorem test_decode_write : decode 0x7000000C00000028 = .command (.write 0x0C 0x28) := by decide

/-- D50 to D57. -/
theorem test_decode_illegal :
    decode 0x0000000000000000 = .illegal .opcode ∧ decode 0x8000000000000000 = .illegal .opcode ∧
    decode 0xF00001020001C200 = .illegal .opcode ∧ decode 0x2000000100000001 = .illegal .mustBeZero ∧
    decode 0x6000000400000001 = .illegal .mustBeZero ∧ decode 0x500801020001C200 = .illegal .mustBeZero ∧
    decode 0x500001820001C200 = .illegal .mustBeZero ∧ decode 0x1000010000001200 = .illegal .mustBeZero := by decide

/-- The encoder gives the same words (D31, D44, D45). -/
theorem test_encode :
    encode (.initUart 9600 1 1 2) = 0x5000020500002580 ∧ encode (.read 0xFFFFFFF) = 0x6FFFFFFF00000000 ∧
    encode (.write 0x0C 0x28) = 0x7000000C00000028 := by decide

/-- The example text of D31, D42 and D45, and spellings R85 does not list. -/
theorem test_text :
    assembleText "init_uart(h, 9600, Odd, enabled, 2)".toList = some (.initUart 9600 1 1 2) ∧
    assembleText "read(h, 0x05)".toList = some (.read 5) ∧
    assembleText "write(h, RER, 0x00000028)".toList = some (.write 0x0C 0x28) ∧
    assembleText "enable_hw_flow_control(h, on)".toList = none ∧
    assembleText "set_stop_bits(h, 256)".toList = none := by decide

/-- The table's numbering: bit 0 is the least significant bit of the word. -/
theorem test_table_word :
    decodeTableWord 64 0x7000000800000001 = some (.write 8 1) ∧ decodeTableWord 64 0x8000000000000000 = none := by decide

/-- The word is what the next step executes, on a block just reset with D28's registers. -/
theorem test_fetch_word :
    (nextOf (step ((State.resetWith
      #v[0xA5A5A5A5, 0xFFFFFFFF, 0x12345678, 0xFFFFFFFF, 0x00000001, 0xDEADBEEF, 0xCAFEF00D]).withFetchWord 64
        0x1000000000002580))).map (fun t => t.regs.brr) = some 0xFFFFFFF1 := by decide

/-- On the real reset state, whose registers no proof can know, the word runs too. -/
theorem test_fetch_after_reset :
    step (State.reset.withFetchWord 64 0x3000000400000000) = exec (.enableHwFlowControl 1) State.reset := rfl

/-! ## Steps -/

/-- D9 on both starting values. -/
theorem test_set_baud_rate :
    brrAfter (block 0xFFFFFFFF) 0x100000000003E800 = some (0xFFFFFFF8, some ⟨.ok, 0⟩) ∧
    brrAfter (block 0) 0x100000000003E800 = some (0x00000008, some ⟨.ok, 0⟩) := by decide

/-- D11, D12 (a code, not a rate) and D13. -/
theorem test_set_baud_rate_refused :
    refusedWith (block 0x1126) 0x10000000000004B0 .unsupportedBaudRate = true ∧
    refusedWith (block 0x1126) 0x1000000000000006 .unsupportedBaudRate = true ∧
    refusedWith (block 0x1126) 0x100000000001C201 .unsupportedBaudRate = true := by decide

/-- D17 on both starting values. -/
theorem test_set_parity :
    brrAfter (block 0xFFFFFFFF) 0x2000000200000000 = some (0xFFFFFFEF, some ⟨.ok, 0⟩) ∧
    brrAfter (block 0) 0x2000000200000000 = some (0x00000020, some ⟨.ok, 0⟩) := by decide

/-- D18. -/
theorem test_set_parity_refused :
    refusedWith (block 0xFFFFFFFF) 0x2000000300000000 .invalidParityCode = true := by decide

/-- D19 and D20. -/
theorem test_enable_hw_flow_control :
    brrAfter (block 0) 0x3000000400000000 = some (0x00000100, some ⟨.ok, 0⟩) ∧
    brrAfter (block 0xFFFFFFFF) 0x3000000000000000 = some (0xFFFFFEFF, some ⟨.ok, 0⟩) := by decide

/-- D24 and D25. -/
theorem test_set_stop_bits :
    brrAfter (block 0xFFFFFFFF) 0x4000020000000000 = some (0xFFFF2FFF, some ⟨.ok, 0⟩) ∧
    brrAfter (block 0) 0x40000F0000000000 = some (0x0000F000, some ⟨.ok, 0⟩) := by decide

/-- D26, the wrap test, and D27. -/
theorem test_set_stop_bits_refused :
    refusedWith (block 0xFFFFFFFF) 0x4000100000000000 .invalidFieldValue = true ∧
    refusedWith (block 0) 0x4000FF0000000000 .invalidFieldValue = true := by decide

/-- D31: every register and `configured`. -/
theorem test_init_uart :
    after (block 0xFFFFFFFF) 0x5000020500002580 = some {
      regs := ⟨0xA5A5A5A5, 0x00002111, 0x12B45678, 0xFFFFFFD7, 0x0000C001, 0, 0⟩
      configured := true
      commands := []
      response := some ⟨.ok, 0⟩ } := by decide

/-- The seventeen accesses a trace double records, in the order of 41_init.md R123. -/
theorem test_init_uart_trace :
    ((initUartPlan 9600 1 1 2).trace registerBacking (block 0).regs).map (fun e => (e.reg, e.isWrite)) =
      [(.brr, true), (.brr, false), (.brr, true), (.brr, false), (.brr, true), (.brr, false), (.brr, true), (.brr, false),
        (.brr, true), (.ter, false), (.ter, true), (.ier, false), (.ier, true), (.rer, false), (.rer, true), (.tdr, true),
        (.rdr, true)] := by decide

/-- D34 to D37b. -/
theorem test_init_uart_refused :
    refusedWith (block 0xFFFFFFFF) 0x50000102000004B0 .unsupportedBaudRate = true ∧
    refusedWith (block 0xFFFFFFFF) 0x5000010300002580 .invalidParityCode = true ∧
    refusedWith (block 0xFFFFFFFF) 0x5000100200002580 .invalidFieldValue = true ∧
    refusedWith (block 0xFFFFFFFF) 0x50001003000004B0 .unsupportedBaudRate = true ∧
    refusedWith (block 0xFFFFFFFF) 0x5000100300002580 .invalidParityCode = true := by decide

/-- D40 and D41 to D44. -/
theorem test_read :
    after ready 0x6000001800000000 = some { ready with response := some ⟨.ok, 0x00000055⟩ } ∧
    refusedWith ready 0x6000001C00000000 .invalidAddress = true ∧
    refusedWith ready 0x6000000500000000 .invalidAddress = true ∧
    refusedWith ready 0x6000000200000000 .invalidAddress = true ∧
    refusedWith ready 0x6FFFFFFF00000000 .invalidAddress = true := by decide

/-- D46 (the reserved word is plain storage) and D45 (no write-one-to-clear). -/
theorem test_write :
    (after ready 0x70000000DEADBEEF).map (fun t => t.regs) = some { ready.regs with rsvd0 := 0xDEADBEEF } ∧
    (after ready 0x7000000C00000028).map (fun t => t.regs) = some { ready.regs with rer := 0x00000028 } := by decide

/-- D48 (no wrap) and D49 (no rounding down). -/
theorem test_write_refused :
    refusedWith ready 0x7000001CDEADBEEF .invalidAddress = true ∧
    refusedWith ready 0x70000019DEADBEEF .invalidAddress = true := by decide

/-- D57: the decode error comes before the unsupported rate. -/
theorem test_illegal_first : refusedWith ready 0x1000010000001200 .illegalCommand = true := by decide

/-- The response as bits (30_encoding.md R79): D39 and D11. -/
theorem test_response_bits :
    (Response.mk .ok 0x00001026).bits = 0x000001026 ∧
    (Response.mk (.error .unsupportedBaudRate) 0).bits = 0x100000000 := by decide

/-- The test buffer holds 0x00001026 at BRR as the bytes 26 10 00 00 (20_memory.md R54). -/
theorem test_buffer :
    let m := bufferBacking.memWrite (Vector.replicate 28 0) .brr 0x00001026
    (m[4], m[5], m[6], m[7], m[8]) = (0x26, 0x10, 0x00, 0x00, 0x00) ∧ bufferBacking.memRead m .brr = 0x00001026 := by
  decide

/-! ## Witnesses: a concrete input that meets a statement's hypotheses, clause by clause -/

/-- UnassignedOpcodeIsIllegalCommand: opcodes 0x0, 0x8 and 0xF. -/
theorem witness_unassigned :
    opField 0x0000000000000000 = 0x0 ∧ 0x8 ≤ opField 0x8000000000000000 ∧ 0x8 ≤ opField 0xF00001020001C200 ∧
    (presentCommand (block 0) 0x8000000000000000).commands = 0x8000000000000000 :: [] := by decide

/-- StrayBitIsIllegalCommand: D57, D53, D54 and D55 and a stray bit for opcodes 3 and 4. -/
theorem witness_strayBit :
    strays 0x1000010000001200 = true ∧ strays 0x2000000100000001 = true ∧ strays 0x3000000100000000 = true ∧
    strays 0x4000000400000000 = true ∧ strays 0x500801020001C200 = true ∧ strays 0x6000000400000001 = true ∧
    (presentCommand (block 0) 0x2000000100000001).commands = 0x2000000100000001 :: [] :=
  ⟨by decide, by decide, by decide, by decide, by decide, by decide, rfl⟩

/-- DecodeReadsOpcodeZeroFieldsAndOperands: a word for each clause, and for the unassigned opcodes at both ends. -/
theorem witness_decodeClauses :
    opField 0x1000000000002580 = 0x1 ∧ opField 0x2000000200000000 = 0x2 ∧ opField 0x3000000400000000 = 0x3 ∧
    opField 0x4000020000000000 = 0x4 ∧ opField 0x500001060001C200 = 0x5 ∧ opField 0x6000000400000000 = 0x6 ∧
    opField 0x7000000800000001 = 0x7 ∧ opField 0 = 0x0 ∧ 0x8 ≤ opField 0x8000000000000000 := by decide

/-- PatternsAreDisjoint: a word that hits a row. -/
theorem witness_patterns : writePattern ∈ patterns ∧ writePattern.hits 0x7000000800000001 = true := by decide

/-- WellFormedCallsAreTheCommands: an ill-formed call and a call that assembles. -/
theorem witness_calls :
    (Call.setParity 4).wellFormed = false ∧ assemble (.setParity 3) = some (.setParity 3) := by decide

/-- StepRunsTheDecodedCommand. -/
theorem witness_step :
    (presentCommand (block 0) 0x1000000000002580).commands = 0x1000000000002580 :: [] ∧
    decode 0x1000000000002580 = .command (.setBaudRate 9600) := by decide

/-- NothingPresentedNothingChanges and the first clause of BlockFollowsCommandsAlone. -/
theorem witness_idle : (block 0).commands = [] ∧ step (block 0) = .next { block 0 with response := none } := ⟨rfl, rfl⟩

/-- EveryCommandEndsWithAResponse, StatusDependsOnTheWordAlone: a state with a word to execute. -/
theorem witness_presented :
    (presentCommand (block 0) 0).commands = 0 :: [] ∧ (presentCommand (block 0) 0).commands ≠ [] := by decide

/-- SetBaudRateWritesTheCode: the first and last rate of the table, and two rates beside it. -/
theorem witness_setBaudRate :
    baudCode 4800 = some 0 ∧ baudCode 256000 = some 8 ∧ baudCode 4799 = none ∧ baudCode 1200 = none := by decide

/-- SetParityWritesTheCode: each code. -/
theorem witness_setParity : (0 : BitVec 2) ≠ 3#2 ∧ (2 : BitVec 2) ≠ 3#2 ∧ (3 : BitVec 2) = 3#2 := by decide

/-- SetStopBitsWritesTheCount: both clauses at their boundaries. -/
theorem witness_setStopBits : (0 : BitVec 8) ≤ 15#8 ∧ (15 : BitVec 8) ≤ 15#8 ∧ 15#8 < (16 : BitVec 8) ∧ 15#8 < (255 : BitVec 8) := by
  decide

/-- SettersMaskClearThenSet: each setter, accepted. -/
theorem witness_settersAccepted :
    ∀ i ∈ [Instr.setBaudRate 256000, .setParity 2, .enableHwFlowControl 0, .enableHwFlowControl 1, .setStopBits 15],
      i.isSetter = true ∧ i.accepted = true := by decide

/-- SettersTouchOnlyTheirField: a refused setter is one too; a bit inside and a bit outside a field; bytes at BRR's edges. -/
theorem witness_settersFrame :
    (Instr.setStopBits 16).isSetter = true ∧ (Instr.setStopBits 16).accepted = false ∧
    (Instr.setStopBits 16).fieldMask.getLsbD 16 = false ∧ (Instr.setStopBits 16).fieldMask.getLsbD 11 = false ∧
    3 < Reg.brr.offset ∧ Reg.brr.offset + 4 ≤ 8 ∧ Reg.ter ≠ .brr := by decide

/-- SettersOfDifferentFieldsCommute: two fields, and twice one field. -/
theorem witness_commute :
    (Instr.setParity 1).fieldMask ≠ (Instr.setStopBits 2).fieldMask ∧
    (Instr.setParity 1).fieldMask = (Instr.setParity 2).fieldMask ∧ (Instr.setParity 2).accepted = true := by decide

/-- SettersAreIdempotent. -/
theorem witness_idempotent :
    (Instr.enableHwFlowControl 1).isSetter = true ∧ ∃ t, exec (.enableHwFlowControl 1) (block 0x1026) = .next t :=
  ⟨rfl, _, rfl⟩

/-- BrrHoldsTheLastOperands: setters (one refused), a read, a `write` to TER and an illegal word. -/
theorem witness_brr :
    ∀ i ∈ commandsOf ({ block 0 with
      commands := [0x1000000000002580, 0x2000000300000000, 0x4000020000000000, 0x6000000400000000, 0x7000000800000001, 0]
      }).commands, i.replacesBrr = false := by decide

/-- InitUartConfiguresTheBlock: the largest and the smallest operands. -/
theorem witness_init :
    baudCode 256000 = some 8 ∧ (2 : BitVec 2) ≠ 3#2 ∧ (15 : BitVec 8) ≤ 15#8 ∧
    baudCode 4800 = some 0 ∧ (0 : BitVec 2) ≠ 3#2 ∧ (0 : BitVec 8) ≤ 15#8 := by decide

/-- InitUartRefusesWhole, InitUartReportsTheFirstBadOperand: each operand bad alone, and all of them. -/
theorem witness_initRefused :
    baudCode 1200 = none ∧ baudCode 9600 ≠ none ∧ (3 : BitVec 2) = 3#2 ∧ (1 : BitVec 2) ≠ 3#2 ∧
    15#8 < (16 : BitVec 8) := by decide

/-- InitUartEstablishesForEveryStart, InitUartPacksBrrAsTheSettersDo, and both cases of InitUartKeepsWhatItDoesNotName. -/
theorem witness_initAccepted :
    (Instr.initUart 115200 2 0 1).accepted = true ∧ (Instr.initUart 9600 2 0 16).accepted = false ∧
    3 < Reg.rsvd0.offset + 4 ∧ Reg.rdr.offset + 4 ≤ 28 := by decide

/-- ReadAnswersTheRegister, WriteReplacesTheRegister: the last offset, and addresses beside and beyond it. -/
theorem witness_address :
    (0x18 : Addr).toNat = Reg.rdr.offset ∧ (0x00 : Addr).toNat = Reg.rsvd0.offset ∧
    (0x19 : Addr).toNat ∉ [0x00, 0x04, 0x08, 0x0C, 0x10, 0x14, 0x18] ∧
    (0x1C : Addr).toNat ∉ [0x00, 0x04, 0x08, 0x0C, 0x10, 0x14, 0x18] := by decide

/-- WriteChangesOnlyItsWord: an address of each kind, and bytes at the edges of the word. -/
theorem witness_writeFrame :
    regAt 0x08 = some .ter ∧ regAt 0x1C = none ∧ regAt 0x05 = none ∧ 7 < (0x08 : Addr).toNat ∧
    (0x08 : Addr).toNat + 4 ≤ 12 := by decide

/-- A setter, a `read`, an illegal word, and a `write` to RDR. -/
def between : List Command := [0x1000000000002580, 0x6000000400000000, 0x500801020001C200, 0x7000001800000001]

/-- ReadReturnsTheLatestWrite: `between` stands between a `write` to TDR and a `read` of it. -/
theorem witness_latestWrite :
    regAt 0x14 = some .tdr ∧ (∀ i ∈ commandsOf between, i.mayWrite .tdr = false) ∧
    ({ block 0 with commands := encode (.write 0x14 7) :: between ++ encode (.read 0x14) :: [] }).commands =
      encode (.write 0x14 7) :: between ++ encode (.read 0x14) :: [] :=
  ⟨by decide, by decide, rfl⟩

/-- ValidAddressesAreTheSevenWordOffsets: misaligned, beyond the block, both; an encoder command that completes. -/
theorem witness_invalidAddress :
    ¬ ((0x05 : Addr).extractLsb' 0 2 = 0#2 ∧ (0x05 : Addr) ≤ 0x18#28) ∧
    ¬ ((0x1C : Addr).extractLsb' 0 2 = 0#2 ∧ (0x1C : Addr) ≤ 0x18#28) ∧
    ¬ ((0xFFFFFFF : Addr).extractLsb' 0 2 = 0#2 ∧ (0xFFFFFFF : Addr) ≤ 0x18#28) ∧
    (Instr.initUart 4800 0 0 0).isInit = true ∧ (Instr.setParity 0).isSetter = true := by decide

theorem witness_encoderCompletes : ∃ t, exec (.setParity 0) (block 0) = .next t := ⟨_, rfl⟩

/-- BlockBytesAreLittleEndian: each clause. -/
theorem witness_bytes :
    3 < 4 ∧ 0x1C ≤ 0x1C ∧ (block 0x00001026).regs.brr = 0x00001026 ∧ (block 0x00001026).byteAt 0x1C = none ∧
    (block 0x00001026).byteAt 0x1B = some 0xCA := by decide

/-- LawfulBackingsBehaveAlike: the register block itself, and an accepted command. -/
theorem witness_backing :
    registerBacking.Lawful ∧ registerBacking.Shows (block 0).regs (block 0).regs ∧
    planOf (.read 0x04) = .run [.load .brr] := ⟨registerBacking_lawful, fun _ => rfl, by decide⟩

/-- FailingCommandChangesNothing: D11. -/
theorem witness_failing :
    ∃ t, step (presentCommand (block 0x1126) 0x10000000000004B0) = .next t ∧
      t.response = some ⟨.error .unsupportedBaudRate, 0⟩ ∧ Status.error .unsupportedBaudRate ≠ .ok :=
  ⟨_, rfl, by decide, by decide⟩

/-- InvalidStopBitCountIsNeverRaised, ResponseDataIsTheWordReadOrZero: a stop count of 16 is answered, and two reads are. -/
theorem witness_answered :
    (∃ t, step (presentCommand (block 0) 0x4000100000000000) = .next t ∧
      t.response = some ⟨.error .invalidFieldValue, 0⟩) ∧
    decode 0x6000001800000000 = .command (.read 0x18) ∧ regAt 0x18 = some .rdr ∧
    decode 0x6000001C00000000 = .command (.read 0x1C) ∧ regAt 0x1C = none :=
  ⟨⟨_, rfl, by decide⟩, by decide, by decide, by decide, by decide⟩

/-- ErrorsAreNotSticky: the failing words of P3, one per error. -/
theorem witness_sticky :
    wordStatus 0x10000000000004B0 ≠ .ok ∧ wordStatus 0x4000100000000000 ≠ .ok ∧ wordStatus 0x2000000300000000 ≠ .ok ∧
    wordStatus 0x6000001C00000000 ≠ .ok ∧ wordStatus 0x0000000000000000 ≠ .ok ∧ wordStatus 0x50001003000004B0 ≠ .ok ∧
    ({ block 0 with commands := [0x10000000000004B0, 0] ++ 0x1000000000002580 :: [] }).commands =
      [0x10000000000004B0, 0] ++ 0x1000000000002580 :: [] :=
  ⟨by decide, by decide, by decide, by decide, by decide, by decide, rfl⟩

/-- ConfiguredFollowsInitUartAlone: an `init_uart` that answers OK, on an unconfigured block. -/
theorem witness_configured :
    ∃ t, step (presentCommand (block 0) 0x500001020001C200) = .next t ∧
      decode 0x500001020001C200 = .command (.initUart 115200 2 0 1) ∧ (Instr.initUart 115200 2 0 1).isInit = true ∧
      t.response = some ⟨.ok, 0⟩ ∧ t.configured = true :=
  ⟨_, rfl, by decide, by decide, by decide, by decide⟩

/-- OnlyResetUnconfigures: a configured block and a run from it. -/
theorem witness_stayConfigured :
    ready.configured = true ∧ ∃ t, Host.Core.run core 1 (presentCommand ready 0) = .next t := ⟨rfl, _, rfl⟩

/-- StepsKeepAConfiguredBlockLegal: a configured block with commands to come, a `write` to RSVD0 among them; and a `write`
that the invariant shuts out. -/
theorem witness_legal :
    State.ConfiguredIsLegal { ready with
      regs := { ready.regs with rdr := 0 }
      commands := [0x1000000000002580, 0x70000000DEADBEEF, 0x500001060001C200] } ∧
    (∃ t, step { ready with
      regs := { ready.regs with rdr := 0 }
      commands := [0x1000000000002580, 0x70000000DEADBEEF, 0x500001060001C200] } = .next t) ∧
    ¬ State.ConfiguredIsLegal { ready with commands := [0x70000004FFFFFFFF] } :=
  ⟨by decide, ⟨_, rfl⟩, by decide⟩

/-- StepIsTheBlocksExecution: a word presented, and one that fails. -/
theorem witness_execute :
    (presentCommand ready 0).commands = 0 :: [] ∧
    (Block.execute 0 ready.toBlock).1.status = .error .illegalCommand := by decide

/-- BlockFollowsCommandsAlone: two states that differ in `configured` and in the old response only. -/
theorem witness_alone :
    ready.regs = ({ ready with configured := false, response := some ⟨.ok, 1⟩ }).regs ∧
    ready.commands = ({ ready with configured := false, response := some ⟨.ok, 1⟩ }).commands ∧
    ∃ t, Host.Core.run core 1 ready = .next t := ⟨rfl, rfl, _, rfl⟩

end Sys2Proof.Tests
end

section
/-! Facts about the state's operations that hold for every command word: what a write leaves of the block's bytes, a step as the
block's execution of the word it takes, and what of the state that execution depends on (10_state.md R22, R38, R41). -/

namespace Sys2Proof.Proofs

open Machine

/-- A write to a register changes no byte outside its four (20_memory.md R54, R55). -/
theorem byteAt_set_outside (b : RegBlock) (r : Reg) (v : Word) (a : Nat)
    (ha : a < r.offset ∨ r.offset + 4 ≤ a) : (b.set r v).byteAt a = b.byteAt a := by
  refine Option.map_congr fun r' hr' => ?_
  have hoff : r'.offset = a / 4 * 4 := by simpa using List.find?_some hr'
  have hne : r' ≠ r := by
    rintro rfl
    omega
  rw [get_set_other b r r' v hne]

/-- The completion of a command touches no register. -/
@[simp] theorem completion_regs (c : Prop) [Decidable c] (b : Block) :
    ((if c then becomeConfigured else stayAsConfigured) b).regs = b.regs := by
  split <;> rfl

/-- A step with a word to take is the block's execution of the word, its response handed to the host. -/
theorem step_eq_execute (s : State) (w : Command) (ws : List Command) (h : s.commands = w :: ws) :
    step s = .next {
      toBlock := (Block.execute w s.toBlock).2
      commands := ws
      response := some (Block.execute w s.toBlock).1 } := by
  rcases step_cases s with ⟨hc, -⟩ | ⟨w', ws', i, hc, hd, hs⟩ | ⟨w', ws', why, hc, hd, hs⟩
  · simp [h] at hc
  · obtain ⟨rfl, rfl⟩ := List.cons.inj (h.symm.trans hc)
    rw [hs, exec_eq_perform]
    simp [perform, handOver, Block.execute, wordPlan, wordIsInit, hd]
  · obtain ⟨rfl, rfl⟩ := List.cons.inj (h.symm.trans hc)
    rw [hs]
    simp [Block.execute, wordPlan, hd]

/-- The response to a word and the registers after it are a function of the word and the registers before it: `configured` is
read by no command (10_state.md R38). -/
theorem execute_depends_on_regs (w : Command) (b b' : Block) (h : b.regs = b'.regs) :
    (Block.execute w b).1 = (Block.execute w b').1 ∧ (Block.execute w b).2.regs = (Block.execute w b').2.regs := by
  unfold Block.execute
  cases wordPlan w with
  | refuse e => simp [h]
  | run as => simp [carryOut_run, h]

/-- Two states with the same registers and the same words to present take the same step, up to `configured`. -/
theorem step_agrees_of_regs_commands (s s' t : State) (hr : s'.regs = s.regs) (hc : s'.commands = s.commands)
    (h : step s = .next t) :
    ∃ u, step s' = .next u ∧ u.regs = t.regs ∧ u.response = t.response ∧ u.commands = t.commands := by
  cases hw : s.commands with
  | nil =>
      rw [step_idle s hw] at h
      cases h
      exact ⟨_, step_idle s' (hc.trans hw), hr, rfl, hc⟩
  | cons w ws =>
      rw [step_eq_execute s w ws hw] at h
      cases h
      obtain ⟨hresp, hregs⟩ := execute_depends_on_regs w s'.toBlock s.toBlock hr
      exact ⟨_, step_eq_execute s' w ws (hc.trans hw), hregs, congrArg some hresp, rfl⟩

/-- An `init_uart` that is accepted loads no word, so the data of its response is the 0 it began with (30_encoding.md R79). -/
theorem init_loads_no_word {σ : Type} (B : Backing σ) (i : Instr) (as : List Access) (m : Progress σ)
    (hi : i.isInit = true) (hp : planOf i = .run as) : (runAccesses B as m).2 = m.2 := by
  cases i with
  | initUart baud par flow stop =>
      simp only [planOf, initUartPlan] at hp
      split at hp
      · cases hp
      · split_ifs at hp
        cases hp
        rfl
  | _ => cases hi

/-- `configured` after a step (10_state.md R38). -/
theorem step_configured_iff (s t : State) (h : step s = .next t) :
    t.configured = true ↔ s.configured = true ∨
      ∃ w ws i, s.commands = w :: ws ∧ decode w = .command i ∧ i.isInit = true ∧ t.response = some ⟨.ok, 0⟩ := by
  cases hw : s.commands with
  | nil =>
      rw [step_idle s hw] at h
      cases h
      simp
  | cons w ws =>
      rcases step_plan s w ws hw with ⟨e, -, hs⟩ | ⟨as, i, -, hd, hp, hs⟩
      · cases hs.symm.trans h
        simp
      · cases hs.symm.trans h
        have hdata : i.isInit = true → (runAccesses registerBacking as (s.regs, 0#32)).2 = 0#32 :=
          fun hi => init_loads_no_word registerBacking i as _ hi hp
        simp [hd, and_iff_left_of_imp hdata]

/-- Settles O47: reset's own field, then the exact condition for becoming 1, then that a step agrees on states that differ in
`configured` alone. -/
theorem configuredFollowsInitUartAlone : Obligations.ConfiguredFollowsInitUartAlone := by
  refine ⟨resetWith_configured, step_configured_iff, fun s t c h => ?_⟩
  exact step_agrees_of_regs_commands s { s with configured := c } t rfl rfl h

end Sys2Proof.Proofs
end

section
/-! The Baud Rate Table and the four setters: a setter is refused or writes its own field's image into BRR, and nothing else
(10_state.md R27, R40; 40_field_setters.md R100, R109). -/

namespace Sys2Proof.Proofs

open Machine

/-- A row of the Baud Rate Table as the numbers the spec prints. -/
def rowNumbers (row : BitVec 32 × BitVec 4) : Nat × Nat := (row.1.toNat, row.2.toNat)

theorem rowNumbers_injective : Function.Injective rowNumbers :=
  Function.Injective.prodMap BitVec.toNat_injective BitVec.toNat_injective

/-- Settles O14: the spec's rows are the model's read as numbers, and reading a row so loses nothing. -/
theorem baudTableHasExactlyNineRates : Obligations.BaudTableHasExactlyNineRates := by
  refine ⟨fun b c => ?_, by decide, by decide⟩
  exact (baudCode_eq_some b c).trans (List.mem_map_of_injective rowNumbers_injective (a := (b, c))).symm

/-- Images of two values at one position meet in the image of what the values have in common. -/
theorem fieldImage_and {n : Nat} (v m : BitVec n) (pos : Nat) :
    fieldImage v pos &&& fieldImage m pos = fieldImage (v &&& m) pos := by
  simp [fieldImage, BitVec.shiftLeft_and_distrib]

/-- A stop count that is accepted fits in the four bits of its field (60_exceptions.md R145). -/
theorem stop_and_fifteen (stop : BitVec 8) (h : stop ≤ 15#8) : stop &&& 15#8 = stop := by
  apply BitVec.eq_of_toNat_eq
  have hle : stop.toNat ≤ 15 := h
  rw [BitVec.toNat_and]
  exact (Nat.and_two_pow_sub_one_eq_mod stop.toNat 4).trans (Nat.mod_eq_of_lt (by omega))

/-- All a setter can do: it is refused, or it makes one masked write of BRR whose image lies inside its field. -/
theorem planOf_setter_cases (i : Instr) (h : i.isSetter = true) :
    (∃ e, planOf i = .refuse e) ∨
    (planOf i = .run [.setField .brr i.fieldMask i.fieldContents] ∧ i.fieldContents &&& i.fieldMask = i.fieldContents) := by
  cases i with
  | setBaudRate baud =>
      cases hb : baudCode baud with
      | none => exact .inl ⟨_, setBaudRatePlan_none baud hb⟩
      | some c =>
          have himage : (Instr.setBaudRate baud).fieldContents = fieldImage c baudPos := by
            simp [Instr.fieldContents, hb, fieldImage, baudPos]
          rw [himage]
          refine .inr ⟨setBaudRatePlan_some baud c hb, (fieldImage_and c 0xF baudPos).trans ?_⟩
          rw [Laws.and_ones c 0xF rfl]
  | setParity par =>
      by_cases hp : par = 3#2
      · exact .inl ⟨_, hp ▸ setParityPlan_bad⟩
      · refine .inr ⟨setParityPlan_ok par hp, (fieldImage_and par 3 parityPos).trans ?_⟩
        rw [Laws.and_ones par 3 rfl]
        rfl
  | enableHwFlowControl flow =>
      refine .inr ⟨rfl, (fieldImage_and flow 1 flowPos).trans ?_⟩
      rw [Laws.and_ones flow 1 rfl]
      rfl
  | setStopBits stop =>
      by_cases hs : stop ≤ 15#8
      · refine .inr ⟨setStopBitsPlan_ok stop hs, (fieldImage_and stop 15#8 stopPos).trans ?_⟩
        rw [stop_and_fifteen stop hs]
        rfl
      · exact .inl ⟨_, setStopBitsPlan_bad stop (BitVec.not_le.mp hs)⟩
  | _ => cases h

theorem isInit_of_isSetter (i : Instr) (h : i.isSetter = true) : i.isInit = false := by
  cases i with
  | initUart _ _ _ _ => cases h
  | _ => rfl

/-- A setter's completion is carrying out its plan and no more. -/
theorem exec_setter (i : Instr) (s : State) (h : i.isSetter = true) :
    exec i s = perform stayAsConfigured (planOf i) s := by
  simp [exec_eq_perform, isInit_of_isSetter i h]

/-- Mask-clear-then-set leaves a bit outside the mask as it was, when the image lies inside it (40_field_setters.md R100). -/
theorem getLsbD_maskClearThenSet_outside (old mask image : Word) (k : Nat) (himage : image &&& mask = image)
    (hk : mask.getLsbD k = false) : (maskClearThenSet old mask image).getLsbD k = old.getLsbD k := by
  rw [← himage]
  simpa [maskClearThenSet, hk] using old.lt_of_getLsbD (i := k)

/-- Settles O20: a refused setter changes the response alone, an accepted one writes BRR under its field's mask. -/
theorem settersTouchOnlyTheirField : Obligations.SettersTouchOnlyTheirField := by
  intro i s hi
  have hexec := fun s => exec_setter i s hi
  rcases planOf_setter_cases i hi with ⟨e, hp⟩ | ⟨hp, himage⟩
  · simp only [hexec, hp, perform_refuse]
    exact ⟨_, rfl, fun _ _ => rfl, fun _ _ => rfl, rfl, rfl, fun _ _ => rfl, by simp [Plan.trace], fun _ => rfl⟩
  · simp only [hexec, hp, perform_setField, trace_setField]
    exact ⟨_, rfl, fun r hr => get_set_other _ _ r _ hr,
      fun k hk => getLsbD_maskClearThenSet_outside _ _ _ k himage hk, rfl, rfl,
      fun a ha => byteAt_set_outside _ _ _ a ha, by simp [BusEvent.reg], fun _ => rfl⟩

end Sys2Proof.Proofs
end

section
/-! The address space: which addresses the access layer accepts, where each byte of the block stands, and that the block follows
its commands alone (20_memory.md R53, R54, R62). -/

namespace Sys2Proof.Proofs

open Machine

/-! ## Valid addresses (R53) -/

/-- Aligned and inside the block: exactly the seven word offsets. -/
theorem aligned_inside_iff_mem_offsets (a : Addr) :
    (a.extractLsb' 0 2 = 0#2 ∧ a ≤ 0x18#28) ↔ a.toNat ∈ [0x00, 0x04, 0x08, 0x0C, 0x10, 0x14, 0x18] := by
  have haligned : a.extractLsb' 0 2 = 0#2 ↔ a.toNat % 4 = 0 := by
    rw [← BitVec.toNat_inj]
    simp
  have hinside : a ≤ 0x18#28 ↔ a.toNat ≤ 0x18 := BitVec.le_def
  rw [haligned, hinside]
  simp only [List.mem_cons, List.not_mem_nil, or_false]
  omega

/-- The address check finds no register at an address that is misaligned or beyond the block. -/
theorem regAt_eq_none (a : Addr) (h : ¬ (a.extractLsb' 0 2 = 0#2 ∧ a ≤ 0x18#28)) : regAt a = none := by
  rw [aligned_inside_iff_mem_offsets] at h
  refine Option.eq_none_iff_forall_ne_some.mpr fun r hr => h ?_
  have hmem : r.offset ∈ allRegs.map Reg.offset := List.mem_map_of_mem (mem_allRegs r)
  rwa [← (regAt_eq_some a r).mp hr] at hmem

/-- A command whose plan is refused changes nothing and makes no access (60_exceptions.md R147). -/
theorem exec_refused (i : Instr) (e : CommandError) (s : State) (hp : planOf i = .refuse e) :
    exec i s = .next { s with response := some ⟨.error e, 0⟩ } ∧ (planOf i).trace registerBacking s.regs = [] := by
  rw [exec_eq_perform, hp]
  exact ⟨rfl, rfl⟩

/-- The encoder commands take no address, so none of their plans is refused for one. -/
theorem planOf_encoder_ne_invalidAddress (i : Instr) (h : i.isSetter = true ∨ i.isInit = true) :
    planOf i ≠ .refuse .invalidAddress := by
  cases i with
  | setBaudRate baud => cases hb : baudCode baud <;> simp [planOf, setBaudRatePlan, hb]
  | setParity par => by_cases hp : parityOk par <;> simp [planOf, setParityPlan, hp]
  | enableHwFlowControl flow => simp [planOf, enableHwFlowControlPlan]
  | setStopBits stop => by_cases hs : stopOk stop <;> simp [planOf, setStopBitsPlan, hs]
  | initUart baud par flow stop =>
      cases hb : baudCode baud with
      | none => simp [planOf, initUartPlan, hb]
      | some c => by_cases hp : parityOk par <;> by_cases hs : stopOk stop <;> simp [planOf, initUartPlan, hb, hp, hs]
  | read addr => simp [Instr.isSetter, Instr.isInit] at h
  | write addr data => simp [Instr.isSetter, Instr.isInit] at h

/-- Settles O36: arithmetic on the address, then the refused plans of `read` and `write`, then the errors the encoder's plans
can end with. -/
theorem validAddressesAreTheSevenWordOffsets : Obligations.ValidAddressesAreTheSevenWordOffsets := by
  refine ⟨aligned_inside_iff_mem_offsets, fun a data s ha => ?_, fun i s t d hi h => ?_⟩
  · have hnone := regAt_eq_none a ha
    obtain ⟨hread, hreadTrace⟩ := exec_refused (.read a) .invalidAddress s (readPlan_none a hnone)
    obtain ⟨hwrite, hwriteTrace⟩ := exec_refused (.write a data) .invalidAddress s (writePlan_none a data hnone)
    exact ⟨hread, hwrite, hreadTrace, hwriteTrace⟩
  · rcases exec_plan i s with ⟨e, hp, he⟩ | ⟨as, -, he⟩
    · cases he.symm.trans h
      have hne : e ≠ .invalidAddress := by
        rintro rfl
        exact planOf_encoder_ne_invalidAddress i hi hp
      simp [hne]
    · cases he.symm.trans h
      simp

/-! ## The block as bytes (R54) -/

/-- A register is the one the search by its own offset finds. -/
theorem find_reg_of_offset (r : Reg) : allRegs.find? (fun r' => r'.offset == r.offset) = some r := by
  cases r <;> rfl

/-- Every register starts at a word boundary (R51). -/
theorem offset_mod_four (r : Reg) : r.offset % 4 = 0 := by
  cases r <;> rfl

/-- Byte k of a register's four is its bits 8k + 7 to 8k. -/
theorem byteAt_offset_add (b : RegBlock) (r : Reg) (k : Nat) (hk : k < 4) :
    b.byteAt (r.offset + k) = some ((b.get r).extractLsb' (8 * k) 8) := by
  have haligned := offset_mod_four r
  have hword : (r.offset + k) / 4 * 4 = r.offset := by omega
  have hbyte : (r.offset + k) % 4 = k := by omega
  rw [RegBlock.byteAt, hword, hbyte, find_reg_of_offset, Option.map_some]

/-- The block ends at 0x1C. -/
theorem byteAt_beyond (b : RegBlock) (a : Nat) (ha : 0x1C ≤ a) : b.byteAt a = none := by
  refine Option.map_eq_none_iff.mpr (List.find?_eq_none.mpr fun r _ => ?_)
  have hlt := offset_lt r
  simp only [beq_iff_eq]
  omega

/-- Settles O37: each register's four bytes, none beyond the block, and the example, which is BRR's four. -/
theorem blockBytesAreLittleEndian : Obligations.BlockBytesAreLittleEndian := by
  refine ⟨fun s => byteAt_offset_add s.regs, fun s => byteAt_beyond s.regs, fun s h => ?_⟩
  have hbyte (k : Nat) (hk : k < 4) : s.byteAt (0x04 + k) = some ((0x00001026 : Word).extractLsb' (8 * k) 8) := by
    rw [← h]
    exact byteAt_offset_add s.regs .brr k hk
  exact ⟨hbyte 0 (by decide), hbyte 1 (by decide), hbyte 2 (by decide), hbyte 3 (by decide)⟩

/-! ## The block follows its commands alone (R62) -/

/-- Every step completes (60_exceptions.md R159; log entry 2 for a step with no command). -/
theorem step_completes (s : State) : ∃ t, step s = .next t := by
  cases hc : s.commands with
  | nil => exact ⟨_, step_idle s hc⟩
  | cons w ws => exact ⟨_, step_eq_execute s w ws hc⟩

/-- Two runs from the same registers and the same words to present agree after any positive number of steps: the first step
already makes their responses agree, and it leaves the later ones the same start. -/
theorem run_agrees_of_regs_commands (n : Nat) (s s' t : State) (hr : s'.regs = s.regs) (hc : s'.commands = s.commands)
    (h : Host.Core.run core (n + 1) s = .next t) :
    ∃ t', Host.Core.run core (n + 1) s' = .next t' ∧ t'.regs = t.regs ∧ t'.commands = t.commands ∧
      t'.response = t.response := by
  obtain ⟨u, hu⟩ := step_completes s
  obtain ⟨u', hu', hregs, hresp, hcmds⟩ := step_agrees_of_regs_commands s s' u hr hc hu
  rw [run_succ n s u hu] at h
  rw [run_succ n s' u' hu']
  cases n with
  | zero =>
      cases h
      exact ⟨u', rfl, hregs, hcmds, hresp⟩
  | succ n => exact run_agrees_of_regs_commands n u u' t hregs hcmds h

/-- Settles O51: an idle step keeps the registers, and runs agree by induction on their length. -/
theorem blockFollowsCommandsAlone : Obligations.BlockFollowsCommandsAlone := by
  refine ⟨fun s t hc h => ?_, fun n s s' t hr hc => run_agrees_of_regs_commands n s s' t hr.symm hc.symm⟩
  cases (step_idle s hc).symm.trans h
  rfl

end Sys2Proof.Proofs
end

section
/-! The decoder: each word is exactly one command's, or illegal and no command's, and an illegal word is refused without an access
(30_encoding.md R74, R81 to R84); and what the response to a word carries (R79). -/

namespace Sys2Proof.Proofs

open Machine

/-! ## The rows of the match and mask table (R74) -/

/-- A word that hits a row has the row's opcode, as every mask covers `op`. -/
theorem opField_of_hits (p : Pattern) (w : Command) (hp : p ∈ patterns) (h : p.hits w = true) :
    opField w = opField p.fixed := by
  have hmask : ∀ p ∈ patterns, opField p.mask = BitVec.allOnes 4 := by decide
  have hw : w &&& p.mask = p.fixed := of_decide_eq_true h
  calc
    opField w = opField w &&& opField p.mask := (Laws.and_ones _ _ (hmask p hp)).symm
    _ = opField (w &&& p.mask) := BitVec.extractLsb'_and.symm
    _ = opField p.fixed := congrArg opField hw

/-- The rows are disjoint, as no two of them share an opcode. -/
theorem pattern_eq_of_hits (p q : Pattern) (w : Command) (hp : p ∈ patterns) (hq : q ∈ patterns) (hpw : p.hits w = true)
    (hqw : q.hits w = true) : p = q := by
  have hinj : ∀ p ∈ patterns, ∀ q ∈ patterns, opField p.fixed = opField q.fixed → p = q := by decide
  exact hinj p hp q hq ((opField_of_hits p w hp hpw).symm.trans (opField_of_hits q w hq hqw))

theorem pattern_mem (i : Instr) : i.pattern ∈ patterns := by
  cases i <;> simp [Instr.pattern, patterns]

/-- Every row has one of the seven opcodes of R71. -/
theorem opField_fixed_range : ∀ p ∈ patterns, 0x1 ≤ opField p.fixed ∧ opField p.fixed ≤ 0x7 := by decide

/-- A command's word hits the command's own row. -/
theorem pattern_hits_encode (i : Instr) : i.pattern.hits (encode i) = true := by
  cases i with
  | setBaudRate baud => exact Laws.EncodeHitsOwnPattern.setBaudRate baud
  | setParity par => exact Laws.EncodeHitsOwnPattern.setParity par
  | enableHwFlowControl flow => exact Laws.EncodeHitsOwnPattern.enableHwFlowControl flow
  | setStopBits stop => exact Laws.EncodeHitsOwnPattern.setStopBits stop
  | initUart baud par flow stop => exact Laws.EncodeHitsOwnPattern.initUart baud par flow stop
  | read addr => exact Laws.EncodeHitsOwnPattern.read addr
  | write addr data => exact Laws.EncodeHitsOwnPattern.write addr data

/-- A command's word hits no other row. -/
theorem hits_encode (i : Instr) (p : Pattern) (hp : p ∈ patterns) : p.hits (encode i) = decide (i.pattern = p) := by
  rw [Bool.eq_iff_iff, decide_eq_true_iff]
  constructor
  · exact pattern_eq_of_hits _ _ _ (pattern_mem i) hp (pattern_hits_encode i)
  · rintro rfl
    exact pattern_hits_encode i

/-! ## Decoding and encoding are inverse (R83, R84) -/

/-- A word whose two `mbz` fields are zero is the format F word of its other fields. -/
theorem formatF_fields (w : Command) (h₂ : mbz2Field w = 0) (h₁ : mbz1Field w = 0) :
    formatF (opField w) (stopField w) (flowField w) (parField w) (baudField w) = w := by
  conv_rhs => rw [Laws.eq_fields_formatF w, h₂, h₁]
  rfl

/-- Every word is the format A word of its fields. -/
theorem formatA_fields (w : Command) : formatA (opField w) (addrField w) (dataField w) = w :=
  (Laws.eq_fields_formatA w).symm

/-- All that decoding can give: a command whose word it is, or Illegal. -/
theorem decode_cases (w : Command) :
    (∃ i, decode w = .command i ∧ encode i = w) ∨ decode w = .illegal (illegalReason w) := by
  unfold decode
  split_ifs with hbaud hpar hflow hstop hinit hread hwrite
  · obtain ⟨hop, h₂, hs, h₁, hf, hp⟩ := (Laws.setBaudRatePattern_hits w).mp hbaud
    exact .inl ⟨_, rfl, by simpa [encode, hop, hs, hf, hp] using formatF_fields w h₂ h₁⟩
  · obtain ⟨hop, h₂, hs, h₁, hf, hb⟩ := (Laws.setParityPattern_hits w).mp hpar
    exact .inl ⟨_, rfl, by simpa [encode, hop, hs, hf, hb] using formatF_fields w h₂ h₁⟩
  · obtain ⟨hop, h₂, hs, h₁, hp, hb⟩ := (Laws.enableHwFlowControlPattern_hits w).mp hflow
    exact .inl ⟨_, rfl, by simpa [encode, hop, hs, hp, hb] using formatF_fields w h₂ h₁⟩
  · obtain ⟨hop, h₂, h₁, hf, hp, hb⟩ := (Laws.setStopBitsPattern_hits w).mp hstop
    exact .inl ⟨_, rfl, by simpa [encode, hop, hf, hp, hb] using formatF_fields w h₂ h₁⟩
  · obtain ⟨hop, h₂, h₁⟩ := (Laws.initUartPattern_hits w).mp hinit
    exact .inl ⟨_, rfl, by simpa [encode, hop] using formatF_fields w h₂ h₁⟩
  · obtain ⟨hop, hd⟩ := (Laws.readPattern_hits w).mp hread
    exact .inl ⟨_, rfl, by simpa [encode, hop, hd] using formatA_fields w⟩
  · have hop := (Laws.writePattern_hits w).mp hwrite
    exact .inl ⟨_, rfl, by simpa [encode, hop] using formatA_fields w⟩
  · exact .inr rfl

/-- Decoding a command's word gives the command: the word hits the command's row alone, and its fields are the operands. -/
theorem decode_encode (i : Instr) : decode (encode i) = .command i := by
  have hhits := hits_encode i
  simp only [patterns, List.forall_mem_cons] at hhits
  obtain ⟨h₁, h₂, h₃, h₄, h₅, h₆, h₇, -⟩ := hhits
  unfold decode
  rw [h₁, h₂, h₃, h₄, h₅, h₆, h₇]
  cases i <;> simp [encode, Instr.pattern, setBaudRatePattern, setParityPattern, enableHwFlowControlPattern,
    setStopBitsPattern, initUartPattern, readPattern, writePattern]

/-- Settles O3: decoding gives a command whose word it is, or Illegal; the word of any other command would decode to that command
as well, which decoding, a function, cannot do. -/
theorem everyWordIsOneCommandOrIllegal : Obligations.EveryWordIsOneCommandOrIllegal := by
  intro w
  rcases decode_cases w with ⟨i, hdecode, hencode⟩ | hdecode
  · refine .inl ⟨i, hdecode, hencode, ?_⟩
    rintro j rfl
    exact Decoded.command.inj ((decode_encode j).symm.trans hdecode)
  · refine .inr ⟨⟨_, hdecode⟩, ?_⟩
    rintro i rfl
    cases (decode_encode i).symm.trans hdecode

/-! ## Illegal words (R81, R82) -/

/-- A word that hits no row is illegal. -/
theorem decode_of_no_hit (w : Command) (hmiss : ∀ p ∈ patterns, p.hits w = false) :
    decode w = .illegal (illegalReason w) := by
  rcases decode_cases w with ⟨i, -, rfl⟩ | hdecode
  · cases (pattern_hits_encode i).symm.trans (hmiss i.pattern (pattern_mem i))
  · exact hdecode

/-- A word that hits no row is refused with `IllegalCommand`, changes nothing and makes no access (60_exceptions.md R148). -/
theorem step_of_no_hit (s : State) (w : Command) (ws : List Command) (h : s.commands = w :: ws)
    (hmiss : ∀ p ∈ patterns, p.hits w = false) :
    step s = .next { s with commands := ws, response := some ⟨.error .illegalCommand, 0⟩ } ∧
      (wordPlan w).trace registerBacking s.regs = [] := by
  have hplan : wordPlan w = .refuse .illegalCommand := by simp [wordPlan, decode_of_no_hit w hmiss]
  rw [step_eq_execute s w ws h, Block.execute, hplan, carryOut_refuse]
  exact ⟨rfl, rfl⟩

/-- An opcode outside 0x1 to 0x7 is no row's. -/
theorem no_hit_of_unassigned (w : Command) (h : opField w = 0x0 ∨ 0x8 ≤ opField w) (p : Pattern) (hp : p ∈ patterns) :
    p.hits w = false := by
  by_contra hhit
  have hop := opField_of_hits p w hp (by simpa using hhit)
  obtain ⟨hlow, hhigh⟩ := opField_fixed_range p hp
  rw [← hop] at hlow hhigh
  bv_omega

/-- Settles O6: a word with an opcode that has no command hits no row. -/
theorem unassignedOpcodeIsIllegalCommand : Obligations.UnassignedOpcodeIsIllegalCommand :=
  ⟨fun s w ws h hop => step_of_no_hit s w ws h (no_hit_of_unassigned w hop), by decide⟩

/-- Settles O7: a word with an assigned opcode that hits no row is refused like any other that hits none. -/
theorem strayBitIsIllegalCommand : Obligations.StrayBitIsIllegalCommand :=
  ⟨fun s w ws h _ _ hmiss => step_of_no_hit s w ws h hmiss, by decide, by decide⟩

/-! ## The response (R79) -/

/-- Only an accepted `read` loads a word; any other accepted command leaves the response data as it began. -/
theorem loads_no_word_of_not_read {σ : Type} (B : Backing σ) (i : Instr) (as : List Access) (m : Progress σ)
    (hp : planOf i = .run as) (hread : ∀ addr reg, i = .read addr → regAt addr ≠ some reg) :
    (runAccesses B as m).2 = m.2 := by
  have hsetter (hi : i.isSetter = true) : (runAccesses B as m).2 = m.2 := by
    rcases planOf_setter_cases i hi with ⟨e, he⟩ | ⟨hrun, -⟩
    · cases he.symm.trans hp
    · cases hrun.symm.trans hp
      rfl
  cases i with
  | initUart baud par flow stop => exact init_loads_no_word B _ as m rfl hp
  | read addr =>
      have hnone : regAt addr = none := Option.eq_none_iff_forall_ne_some.mpr fun reg => hread addr reg rfl
      cases (readPlan_none addr hnone).symm.trans hp
  | write addr data =>
      cases hreg : regAt addr with
      | none => cases (writePlan_none addr data hreg).symm.trans hp
      | some reg =>
          cases (writePlan_some addr data reg hreg).symm.trans hp
          rfl
  | _ => exact hsetter rfl

/-- The plan of a `read` whose address names a register is to load it. -/
theorem wordPlan_read (w : Command) (addr : Addr) (reg : Reg) (hd : decode w = .command (.read addr))
    (hreg : regAt addr = some reg) : wordPlan w = .run [.load reg] := by
  simp [wordPlan, hd, planOf, readPlan_some addr reg hreg]

/-- Settles O46: a refused word is no successful read, and answers 0; the data of an accepted one is what its accesses loaded. -/
theorem responseDataIsTheWordReadOrZero : Obligations.ResponseDataIsTheWordReadOrZero := by
  refine ⟨fun s w ws h => ?_, fun r => rfl⟩
  rcases step_plan s w ws h with ⟨e, hplan, hstep⟩ | ⟨as, i, hplan, hdecode, hp, hstep⟩
  · refine ⟨_, _, hstep, rfl, by rw [wordStatus, hplan]; rfl, fun addr reg hd hreg => ?_, fun _ => rfl⟩
    cases hplan.symm.trans (wordPlan_read w addr reg hd hreg)
  · refine ⟨_, _, hstep, rfl, by rw [wordStatus, hplan]; rfl, fun addr reg hd hreg => ?_, fun hread => ?_⟩
    · cases hplan.symm.trans (wordPlan_read w addr reg hd hreg)
      rfl
    · refine loads_no_word_of_not_read registerBacking i as (s.regs, 0) hp ?_
      rintro addr reg rfl
      exact hread addr reg hdecode

end Sys2Proof.Proofs
end

section
/-! What each field setter writes: its word, the masked write of BRR it makes when its operand is accepted, and its refusal
otherwise (40_field_setters.md R100, R103 to R106). -/

namespace Sys2Proof.Proofs

open Machine

/-! ## Mask-clear-then-set (R100) -/

/-- The field holds exactly the image, when the image lies inside it. -/
theorem maskClearThenSet_and_mask (old mask image : Word) (himage : image &&& mask = image) :
    maskClearThenSet old mask image &&& mask = image := by
  calc
    maskClearThenSet old mask image &&& mask = (old &&& (~~~mask &&& mask)) ||| (image &&& mask) := by
      rw [maskClearThenSet, BitVec.and_or_distrib_right, BitVec.and_assoc]
    _ = image := by simp [himage]

/-- Every bit outside the field is as it was, when the image lies inside the field. -/
theorem maskClearThenSet_and_not_mask (old mask image : Word) (himage : image &&& mask = image) :
    maskClearThenSet old mask image &&& ~~~mask = old &&& ~~~mask := by
  have houtside : image &&& ~~~mask = 0 := by
    rw [← himage, BitVec.and_assoc, BitVec.and_not_self]
    exact BitVec.and_zero
  calc
    maskClearThenSet old mask image &&& ~~~mask = (old &&& (~~~mask &&& ~~~mask)) ||| (image &&& ~~~mask) := by
      rw [maskClearThenSet, BitVec.and_or_distrib_right, BitVec.and_assoc]
    _ = old &&& ~~~mask := by simp [houtside]

/-- A setter whose plan is a masked write of BRR makes one read and one write of it, changes nothing else and answers OK. -/
theorem exec_setter_setField (i : Instr) (s : State) (mask image : Word) (hi : i.isSetter = true)
    (hp : planOf i = .run [.setField .brr mask image]) :
    exec i s = .next { s with
      regs := { s.regs with brr := maskClearThenSet s.regs.brr mask image }
      response := some ⟨.ok, 0⟩ } ∧
    (planOf i).trace registerBacking s.regs =
      [.read .brr s.regs.brr, .write .brr (maskClearThenSet s.regs.brr mask image)] := by
  rw [exec_setter i s hi, hp]
  exact ⟨perform_setField .brr mask image s, trace_setField .brr mask image s.regs⟩

/-- Settles O19: an accepted setter is not refused, so it makes the masked write of its own field's image. -/
theorem settersMaskClearThenSet : Obligations.SettersMaskClearThenSet := by
  intro i s hi haccepted
  rcases planOf_setter_cases i hi with ⟨e, hp⟩ | ⟨hp, himage⟩
  · simp [Instr.accepted, hp, Plan.status] at haccepted
  · obtain ⟨hexec, htrace⟩ := exec_setter_setField i s _ _ hi hp
    exact ⟨_, hexec, maskClearThenSet_and_mask _ _ _ himage, maskClearThenSet_and_not_mask _ _ _ himage, htrace⟩

/-! ## The four setters (R103 to R106) -/

/-- A field at position 0 is written without a shift. -/
theorem fieldImage_zero {n : Nat} (v : BitVec n) : fieldImage v 0 = v.setWidth 32 := BitVec.shiftLeft_zero _

/-- Settles O15: the table's answer decides between the masked write of the code and the refusal. -/
theorem setBaudRateWritesTheCode : Obligations.SetBaudRateWritesTheCode := by
  intro baud s
  refine ⟨by simp [encode, Laws.formatF_eq_or], fun c hc => ?_, fun hnone => ?_⟩
  · have hplan := setBaudRatePlan_some baud c hc
    rw [baudPos, fieldImage_zero] at hplan
    exact exec_setter_setField (.setBaudRate baud) s _ _ rfl hplan
  · exact exec_refused (.setBaudRate baud) _ s (setBaudRatePlan_none baud hnone)

/-- Settles O16: code 3 is refused, any other is written under the field's mask. -/
theorem setParityWritesTheCode : Obligations.SetParityWritesTheCode := by
  intro par s
  refine ⟨by simp [encode, Laws.formatF_eq_or], fun hok => ?_, ?_⟩
  · exact exec_setter_setField (.setParity par) s _ _ rfl (setParityPlan_ok par hok)
  · rintro rfl
    exact exec_refused (.setParity 3#2) _ s setParityPlan_bad

/-- Settles O17: the plan is the masked write for either value of the bit. -/
theorem enableHwFlowControlWritesTheBit : Obligations.EnableHwFlowControlWritesTheBit := by
  intro flow s
  refine ⟨by simp [encode, Laws.formatF_eq_or], ?_⟩
  exact exec_setter_setField (.enableHwFlowControl flow) s _ _ rfl rfl

/-- Settles O18: a count that fits the field is written under its mask, a larger one is refused. -/
theorem setStopBitsWritesTheCount : Obligations.SetStopBitsWritesTheCount := by
  intro stop s
  refine ⟨by simp [encode, Laws.formatF_eq_or], fun hfits => ?_, fun hlarge => ?_⟩
  · exact exec_setter_setField (.setStopBits stop) s _ _ rfl (setStopBitsPlan_ok stop hfits)
  · exact exec_refused (.setStopBits stop) _ s (setStopBitsPlan_bad stop hlarge)

end Sys2Proof.Proofs
end

section
/-! The access layer commands: at a register's offset `read` is one load and `write` one store, at any other address they are
refused (42_access.md R130, R131). -/

namespace Sys2Proof.Proofs

open Machine

/-- The trace of one load. -/
theorem trace_load (r : Reg) (b : RegBlock) :
    (Plan.run [.load r]).trace registerBacking b = [.read r (b.get r)] := rfl

/-- The trace of one store. -/
theorem trace_store (r : Reg) (v : Word) (b : RegBlock) :
    (Plan.run [.store r v]).trace registerBacking b = [.write r v] := rfl

/-- A number that is none of the seven offsets is the address of no register. -/
theorem regAt_eq_none_of_not_mem_offsets (a : Addr)
    (h : a.toNat ∉ [0x00, 0x04, 0x08, 0x0C, 0x10, 0x14, 0x18]) : regAt a = none :=
  regAt_eq_none a (mt (aligned_inside_iff_mem_offsets a).mp h)

/-- A `read` at a register's address loads that register, answers it and changes nothing else. -/
theorem exec_read_of_regAt (addr : Addr) (r : Reg) (s : State) (h : regAt addr = some r) :
    exec (.read addr) s = .next { s with response := some ⟨.ok, s.regs.get r⟩ } ∧
      (planOf (.read addr)).trace registerBacking s.regs = [.read r (s.regs.get r)] := by
  have hplan : planOf (.read addr) = .run [.load r] := readPlan_some addr r h
  rw [exec_eq_perform, hplan]
  exact ⟨perform_load r s, trace_load r s.regs⟩

/-- A `write` at a register's address stores all of the datum there and changes nothing else. -/
theorem exec_write_of_regAt (addr : Addr) (data : Word) (r : Reg) (s : State) (h : regAt addr = some r) :
    exec (.write addr data) s = .next { s with regs := s.regs.set r data, response := some ⟨.ok, 0⟩ } ∧
      (planOf (.write addr data)).trace registerBacking s.regs = [.write r data] := by
  have hplan : planOf (.write addr data) = .run [.store r data] := writePlan_some addr data r h
  rw [exec_eq_perform, hplan]
  exact ⟨perform_store r data s, trace_store r data s.regs⟩

/-- Settles O30: the address check finds the register whose offset the address is, or none. -/
theorem readAnswersTheRegister : Obligations.ReadAnswersTheRegister := by
  intro addr s
  refine ⟨by simp [encode, Laws.formatA_eq_or], fun r hr => ?_, fun hbad => ?_⟩
  · exact exec_read_of_regAt addr r s ((regAt_eq_some addr r).mpr hr)
  · exact exec_refused (.read addr) _ s (readPlan_none addr (regAt_eq_none_of_not_mem_offsets addr hbad))

/-- Settles O31: as for `read`, with a store in place of the load. -/
theorem writeReplacesTheRegister : Obligations.WriteReplacesTheRegister := by
  intro addr data s
  refine ⟨by simp [encode, Laws.formatA_eq_or], fun r hr => ?_, fun hbad => ?_⟩
  · exact exec_write_of_regAt addr data r s ((regAt_eq_some addr r).mpr hr)
  · exact exec_refused (.write addr data) _ s
      (writePlan_none addr data (regAt_eq_none_of_not_mem_offsets addr hbad))

end Sys2Proof.Proofs
end

section
/-! Errors: the status of a word is a function of the word, a failing word makes no access and changes nothing, so that failures
leave nothing behind them, and every word is answered (60_exceptions.md R144, R147, R151, R153, R159). -/

namespace Sys2Proof.Proofs

open Machine

/-! ## The status of a word (R153) -/

/-- The block answers a word with the status of the word's plan, whatever it holds. -/
theorem execute_status (w : Command) (b : Block) : (Block.execute w b).1.status = wordStatus w := by
  unfold Block.execute wordStatus
  cases wordPlan w with
  | refuse e => rfl
  | run as => rfl

/-- Settles O42: the response is that of the block's execution of the word. -/
theorem statusDependsOnTheWordAlone : Obligations.StatusDependsOnTheWordAlone :=
  fun s w ws h => ⟨_, _, step_eq_execute s w ws h, rfl, execute_status w s.toBlock⟩

/-- Settles O54: a word presented on any state is taken and answered, so it is on the state a first word leaves too. -/
theorem everyWordIsAnsweredFromEveryState : Obligations.EveryWordIsAnsweredFromEveryState := by
  intro s w
  have answered (s : State) (w : Command) := step_eq_execute (presentCommand s w) w s.commands rfl
  exact ⟨_, _, answered s w, rfl, rfl, fun w' => ⟨_, _, answered _ w', rfl, rfl⟩⟩

/-! ## A failing word (R147) -/

/-- A word fails exactly when its plan is refused. -/
theorem wordStatus_ne_ok_iff (w : Command) : wordStatus w ≠ .ok ↔ ∃ e, wordPlan w = .refuse e := by
  unfold wordStatus
  cases wordPlan w with
  | refuse e => simp [Plan.status]
  | run as => simp [Plan.status]

/-- A word whose plan is refused makes no access, and its step changes the ports alone. -/
theorem step_refused (s : State) (w : Command) (ws : List Command) (e : CommandError) (h : s.commands = w :: ws)
    (hplan : wordPlan w = .refuse e) :
    step s = .next { s with commands := ws, response := some ⟨.error e, 0⟩ } ∧
      (wordPlan w).trace registerBacking s.regs = [] := by
  rw [step_eq_execute s w ws h, Block.execute, hplan, carryOut_refuse]
  exact ⟨rfl, rfl⟩

/-- Settles O41: a status that is not OK is the word's, so the word's plan is refused. -/
theorem failingCommandChangesNothing : Obligations.FailingCommandChangesNothing := by
  intro s t w ws r hw hstep hr hfail
  have hstatus : r.status = wordStatus w := by
    cases (step_eq_execute s w ws hw).symm.trans hstep
    cases hr
    exact execute_status w s.toBlock
  obtain ⟨e, hplan⟩ := (wordStatus_ne_ok_iff w).mp (hstatus ▸ hfail)
  obtain ⟨hrefused, htrace⟩ := step_refused s w ws e hw hplan
  cases hrefused.symm.trans hstep
  cases hr
  exact ⟨rfl, rfl, rfl, rfl, htrace⟩

/-! ## Failures leave nothing behind (R151) -/

/-- A step that has a word to take does not depend on the response to an earlier one. -/
theorem step_ignores_response (s : State) (w : Command) (ws : List Command) (r : Option Response) :
    step { s with commands := w :: ws, response := r } = step { s with commands := w :: ws } :=
  (step_eq_execute _ w ws rfl).trans (step_eq_execute { s with commands := w :: ws } w ws rfl).symm

/-- Running failing words and then one more is the step on that one alone. -/
theorem run_failing_then_step (bad : List Command) (w : Command) (ws : List Command)
    (hbad : ∀ b ∈ bad, wordStatus b ≠ .ok) (s : State) (h : s.commands = bad ++ w :: ws) :
    Host.Core.run core (bad.length + 1) s = step { s with commands := w :: ws } := by
  induction bad generalizing s with
  | nil =>
      have hs : { s with commands := w :: ws } = s := by rw [← List.nil_append (w :: ws), ← h]
      have hstep := step_eq_execute s w ws h
      rw [hs, hstep]
      exact run_succ 0 s _ hstep
  | cons b bad ih =>
      obtain ⟨e, hplan⟩ := (wordStatus_ne_ok_iff b).mp (hbad b List.mem_cons_self)
      obtain ⟨hrefused, -⟩ := step_refused s b (bad ++ w :: ws) e h hplan
      have hskip := run_succ (bad.length + 1) s _ hrefused
      have hrest := fun b' hb' => hbad b' (List.mem_cons_of_mem b hb')
      exact (hskip.trans (ih hrest _ rfl)).trans (step_ignores_response s w ws _)

/-- Settles O45: the step on the last word alone completes, and the run is that step. -/
theorem errorsAreNotSticky : Obligations.ErrorsAreNotSticky := by
  intro s bad w ws hbad h
  obtain ⟨t, ht⟩ := step_completes { s with commands := w :: ws }
  exact ⟨t, (run_failing_then_step bad w ws hbad s h).trans ht, ht⟩

/-! ## Stop counts (R144) -/

/-- The outcome of `set_stop_bits`: its count fits the field, or is an invalid value of it. -/
theorem setStopBits_status (stop : BitVec 8) :
    (planOf (.setStopBits stop)).status = if stop ≤ 15#8 then .ok else .error .invalidFieldValue := by
  by_cases hfits : stop ≤ 15#8
  · simp [planOf, setStopBitsPlan_ok stop hfits, Plan.status, hfits]
  · simp [planOf, setStopBitsPlan_bad stop (BitVec.not_le.mp hfits), Plan.status, hfits]

/-- The outcome of `init_uart`, once its rate and parity are legal, is that of `set_stop_bits`. -/
theorem initUart_status (baud : BitVec 32) (par : BitVec 2) (flow : BitVec 1) (stop : BitVec 8)
    (hbaud : baudCode baud ≠ none) (hpar : par ≠ 3#2) :
    (planOf (.initUart baud par flow stop)).status = if stop ≤ 15#8 then .ok else .error .invalidFieldValue := by
  obtain ⟨code, hcode⟩ := Option.ne_none_iff_exists'.mp hbaud
  by_cases hfits : stop ≤ 15#8
  · simp [planOf, initUartPlan_ok baud par flow stop code hcode hpar hfits, Plan.status, hfits]
  · simp [planOf, initUartPlan_badStop baud par flow stop code hcode hpar (BitVec.not_le.mp hfits), Plan.status, hfits]

/-- No command's operands are refused with `InvalidStopBitCount`: a count is refused as an invalid value, and the other
operands have errors of their own. -/
theorem planOf_status_ne_invalidStopBitCount (i : Instr) : (planOf i).status ≠ .error .invalidStopBitCount := by
  cases i with
  | setBaudRate baud =>
      cases hbaud : baudCode baud <;> simp [planOf, setBaudRatePlan, hbaud, Plan.status]
  | setParity par => by_cases hpar : parityOk par <;> simp [planOf, setParityPlan, hpar, Plan.status]
  | enableHwFlowControl flow => simp [planOf, enableHwFlowControlPlan, Plan.status]
  | setStopBits stop =>
      rw [setStopBits_status]
      split <;> simp
  | initUart baud par flow stop =>
      by_cases hbaud : baudCode baud = none
      · simp [planOf, initUartPlan_badBaud baud par flow stop hbaud, Plan.status]
      · by_cases hpar : par = 3#2
        · obtain ⟨code, hcode⟩ := Option.ne_none_iff_exists'.mp hbaud
          simp [planOf, hpar, initUartPlan_badParity baud flow stop code hcode, Plan.status]
        · rw [initUart_status baud par flow stop hbaud hpar]
          split <;> simp
  | read addr => cases hreg : regAt addr <;> simp [planOf, readPlan, hreg, Plan.status]
  | write addr data => cases hreg : regAt addr <;> simp [planOf, writePlan, hreg, Plan.status]

/-- Settles O43: an executed word answers its own status, and that is its command's or `IllegalCommand`. -/
theorem invalidStopBitCountIsNeverRaised : Obligations.InvalidStopBitCountIsNeverRaised := by
  refine ⟨rfl, fun s t r hpresented hstep hr => ?_, setStopBits_status, initUart_status⟩
  obtain ⟨w, ws, hw⟩ := List.exists_cons_of_ne_nil hpresented
  cases (step_eq_execute s w ws hw).symm.trans hstep
  cases hr
  rw [execute_status, wordStatus, wordPlan]
  cases decode w with
  | command i => exact planOf_status_ne_invalidStopBitCount i
  | illegal why => simp [Plan.status]

end Sys2Proof.Proofs
end

section
/-! Reset: what it leaves, that a first command is executed on it as on any state, and that no run leads back to unconfigured
(70_reset_and_hazards.md R170 to R173). -/

namespace Sys2Proof.Proofs

open Machine

/-! ## The lifecycle along a run (R173) -/

/-- What every step keeps holds of every state a run reaches. -/
theorem run_keeps (P : State → Prop) (hkeep : ∀ s t : State, step s = .next t → P s → P t) (n : Nat) (s t : State)
    (hs : P s) (h : Host.Core.run core n s = .next t) : P t := by
  induction n generalizing s with
  | zero =>
      cases h
      exact hs
  | succ n ih =>
      obtain ⟨u, hu⟩ := step_completes s
      exact ih u (hkeep s u hu hs) ((run_succ n s u hu).symm.trans h)

/-- A step keeps a configured block configured (10_state.md R38). -/
theorem step_keeps_configured (s t : State) (h : step s = .next t) (hs : s.configured = true) : t.configured = true :=
  (step_configured_iff s t h).mpr (.inl hs)

/-- Settles O48: every step keeps a configured block configured, so every run does. -/
theorem onlyResetUnconfigures : Obligations.OnlyResetUnconfigures :=
  ⟨resetWith_configured _, run_keeps (fun s => s.configured = true) step_keeps_configured⟩

/-! ## The state after reset (R170 to R172) -/

/-- Presenting a command's word and taking a step executes the command, whatever the state. -/
theorem step_presentCommand_encode (i : Instr) (s : State) : step (presentCommand s (encode i)) = exec i s := by
  simp [step, takeCommand, presentCommand, decode_encode]

/-- Settles O52: reset's own fields, and the first command as a command presented on any state. -/
theorem resetLeavesTheResetImage : Obligations.ResetLeavesTheResetImage := by
  refine ⟨fun image => ?_, rfl, fun image i => step_presentCommand_encode i (State.resetWith image)⟩
  simp

end Sys2Proof.Proofs
end

section
/-! The decoder read field by field, and the calls of the text form: what each opcode decodes to, and which command a call stands
for (30_encoding.md R71 to R74, R84, R85). -/

namespace Sys2Proof.Proofs

open Machine

/-- Settles O2: an encoded command hits its own row alone, and its fields are its operands. -/
theorem decodeOfEncodeIsTheCommand : Obligations.DecodeOfEncodeIsTheCommand := decode_encode

/-- Settles O5: two rows hit by one word share its opcode, and no two rows share one. -/
theorem patternsAreDisjoint : Obligations.PatternsAreDisjoint :=
  fun w p hp q hq => pattern_eq_of_hits p q w hp hq

/-! ## The decoder by opcode (R71, R74, R84) -/

/-- The decoder with each row's match written as what its fields hold. -/
theorem decode_eq_by_fields (w : Command) :
    decode w =
      if opField w = 1 ∧ mbz2Field w = 0 ∧ stopField w = 0 ∧ mbz1Field w = 0 ∧ flowField w = 0 ∧ parField w = 0 then
        .command (.setBaudRate (baudField w))
      else if opField w = 2 ∧ mbz2Field w = 0 ∧ stopField w = 0 ∧ mbz1Field w = 0 ∧ flowField w = 0 ∧ baudField w = 0 then
        .command (.setParity (parField w))
      else if opField w = 3 ∧ mbz2Field w = 0 ∧ stopField w = 0 ∧ mbz1Field w = 0 ∧ parField w = 0 ∧ baudField w = 0 then
        .command (.enableHwFlowControl (flowField w))
      else if opField w = 4 ∧ mbz2Field w = 0 ∧ mbz1Field w = 0 ∧ flowField w = 0 ∧ parField w = 0 ∧ baudField w = 0 then
        .command (.setStopBits (stopField w))
      else if opField w = 5 ∧ mbz2Field w = 0 ∧ mbz1Field w = 0 then
        .command (.initUart (baudField w) (parField w) (flowField w) (stopField w))
      else if opField w = 6 ∧ dataField w = 0 then .command (.read (addrField w))
      else if opField w = 7 then .command (.write (addrField w) (dataField w))
      else .illegal (illegalReason w) := by
  simp only [decode, Laws.setBaudRatePattern_hits, Laws.setParityPattern_hits, Laws.enableHwFlowControlPattern_hits,
    Laws.setStopBitsPattern_hits, Laws.initUartPattern_hits, Laws.readPattern_hits, Laws.writePattern_hits]

/-- Settles O4: with the opcode fixed, every row but its own is missed, and a word that misses that one too has a stray bit; an
opcode with no command misses every row. -/
theorem decodeReadsOpcodeZeroFieldsAndOperands : Obligations.DecodeReadsOpcodeZeroFieldsAndOperands := by
  intro w
  refine ⟨?_, ?_, ?_, ?_, ?_, ?_, ?_, fun hop => ?_⟩
  case refine_8 => rw [decode_of_no_hit w (no_hit_of_unassigned w hop), illegalReason, if_pos hop]
  all_goals
    intro hop
    simp [decode_eq_by_fields, illegalReason, hop]

/-! ## Calls (R85) -/

/-- A command's operands are in the ranges of its call, as they have the widths of the fields. -/
theorem wellFormed_of_instr (i : Instr) : i.wellFormed = true := by
  cases i <;> simp [Instr.wellFormed, Instr.toCall, Call.wellFormed] <;> omega

/-- Cutting the integers of a command's call to their fields gives the command back. -/
theorem callInstr_toCall (i : Instr) : callInstr i.toCall = i := by
  cases i <;> simp [Instr.toCall, callInstr]

/-- Cutting the integers of a well-formed call to their fields loses nothing. -/
theorem toCall_callInstr (c : Call) (h : c.wellFormed = true) : (callInstr c).toCall = c := by
  cases c <;> simp [Call.wellFormed] at h <;> simp [callInstr, Instr.toCall] <;> omega

/-- Settles O8: on well-formed calls cutting to the fields and reading the operands as integers undo each other. -/
theorem wellFormedCallsAreTheCommands : Obligations.WellFormedCallsAreTheCommands := by
  refine ⟨fun i => ⟨wellFormed_of_instr i, ?_⟩, fun c hc => by simp [assemble, hc], fun c i h => ?_⟩
  · exact (if_pos (wellFormed_of_instr i)).trans (congrArg some (callInstr_toCall i))
  · obtain ⟨hwf, hcut⟩ := Option.ite_none_right_eq_some.mp h
    cases hcut
    exact toCall_callInstr c hwf

/-! ## The spec's own examples -/

/-- Settles O1: the decoder evaluated at the eleven words. -/
theorem specWordsDecodeToTheirCommands : Obligations.SpecWordsDecodeToTheirCommands := by
  unfold Obligations.SpecWordsDecodeToTheirCommands
  decide

/-- Settles O9: the reader of the text form evaluated at the five texts. -/
theorem documentCallsAssemble : Obligations.DocumentCallsAssemble :=
  ⟨by decide, by decide, by decide, by decide, by decide⟩

end Sys2Proof.Proofs
end

section
/-! The step and the response: a step executes the word it takes, an idle one changes nothing, no run stops, and what the codes
and bits of a response are (10_state.md R22, R41; 30_encoding.md R79; 60_exceptions.md R141, R159). -/

namespace Sys2Proof.Proofs

open Machine

/-! ## The step -/

/-- Settles O10: the step takes the first word, decodes it and executes the command. -/
theorem stepRunsTheDecodedCommand : Obligations.StepRunsTheDecodedCommand := by
  intro s w ws i hw hd
  simp [step, takeCommand, hw, hd]

/-- Settles O11: with no word to take the step only clears the response. -/
theorem nothingPresentedNothingChanges : Obligations.NothingPresentedNothingChanges := step_idle

/-- Settles O12: an idle step leaves the empty port empty, any other is the block's execution of the first word. -/
theorem everyCommandEndsWithAResponse : Obligations.EveryCommandEndsWithAResponse := by
  intro s
  cases hw : s.commands with
  | nil => exact ⟨_, step_idle s hw, hw, fun hne => absurd rfl hne⟩
  | cons w ws => exact ⟨_, step_eq_execute s w ws hw, rfl, fun _ => ⟨_, rfl⟩⟩

/-- Settles O13: by induction on the number of steps, each of which completes and takes one word. -/
theorem runsNeverStop : Obligations.RunsNeverStop := by
  intro n
  induction n with
  | zero => exact fun s => ⟨s, rfl, rfl⟩
  | succ n ih =>
      intro s
      obtain ⟨u, hu, hcommands, -⟩ := everyCommandEndsWithAResponse s
      obtain ⟨t, ht, hdrop⟩ := ih u
      refine ⟨t, (run_succ n s u hu).trans ht, ?_⟩
      rw [hdrop, hcommands, List.drop_tail]

/-- Settles O53: the step is the block's execution, and a response with an error is that of a refused plan. -/
theorem stepIsTheBlocksExecution : Obligations.StepIsTheBlocksExecution := by
  refine ⟨step_eq_execute, fun b w e he => ?_⟩
  have hfail : wordStatus w ≠ .ok := by simp [← execute_status w b, he]
  obtain ⟨e', hplan⟩ := (wordStatus_ne_ok_iff w).mp hfail
  rw [Block.execute, hplan, carryOut_refuse]

/-! ## The response (R79, R141) -/

/-- The seven statuses in the order of their codes. -/
def statuses : List Status :=
  [.ok, .error .unsupportedBaudRate, .error .invalidParityCode, .error .invalidStopBitCount, .error .invalidFieldValue,
    .error .invalidAddress, .error .illegalCommand]

theorem mem_statuses (a : Status) : a ∈ statuses := by
  rcases a with _ | (_ | _ | _ | _ | _ | _) <;> decide

/-- No two statuses share a code. -/
theorem status_code_injective (a b : Status) (h : a.code = b.code) : a = b := by
  have hlisted : ∀ a ∈ statuses, ∀ b ∈ statuses, a.code = b.code → a = b := by decide
  exact hlisted a (mem_statuses a) b (mem_statuses b) h

/-- No code is above 6. -/
theorem status_code_le (a : Status) : a.code ≤ 0x6 := by
  have hlisted : ∀ a ∈ statuses, a.code ≤ 0x6 := by decide
  exact hlisted a (mem_statuses a)

/-- The status stands above the data. -/
theorem response_bits_fields (r : Response) :
    r.bits.extractLsb' 32 4 = r.status.code ∧ r.bits.extractLsb' 0 32 = r.data :=
  ⟨BitVec.extractLsb'_append_eq_left, BitVec.extractLsb'_append_eq_right⟩

/-- Settles O44: the table by evaluation, then what holds of the seven codes listed, then the two parts of a response. -/
theorem statusCodesAreTheTable : Obligations.StatusCodesAreTheTable :=
  ⟨rfl, rfl, rfl, rfl, rfl, rfl, rfl, status_code_injective, status_code_le, response_bits_fields⟩

/-! ## Reset -/

/-- Settles O50: after reset no word is presented and the block is unconfigured. -/
theorem configuredIsLegalAtReset : Obligations.ConfiguredIsLegalAtReset := by
  have hreset (image : Vector Word 7) : (State.resetWith image).ConfiguredIsLegal := by
    simp [State.ConfiguredIsLegal, commandsOf]
  exact ⟨hreset, hreset Config.resetImage⟩

end Sys2Proof.Proofs
end

section
/-! The accesses of a command on a storage: they are coherent, any lawful backing gives them the same result, and the 28-byte buffer
is one (20_memory.md R51, R54 to R59). -/

namespace Sys2Proof.Proofs

open Machine

/-! ## Coherence (R59) -/

/-- The events of one access are coherent from the block it starts on to the block it leaves. -/
theorem coherent_events_append (a : Access) (m : Progress RegBlock) (rest : List BusEvent) (c : RegBlock)
    (h : Coherent (a.apply registerBacking m).1 rest c) : Coherent m.1 (a.events registerBacking m.1 ++ rest) c := by
  cases a with
  | store r v => exact h
  | _ => exact ⟨rfl, h⟩

/-- The trace of a list of accesses is coherent. -/
theorem coherent_traceAccesses (as : List Access) (m : Progress RegBlock) :
    Coherent m.1 (traceAccesses registerBacking as m) (runAccesses registerBacking as m).1 := by
  induction as generalizing m with
  | nil => rfl
  | cons a as ih => exact coherent_events_append a m _ _ (ih (a.apply registerBacking m))

/-- Settles O38: a refused command has the empty trace, an accepted one that of its accesses. -/
theorem everyReadReturnsTheLatestWrite : Obligations.EveryReadReturnsTheLatestWrite := by
  intro i s
  rcases exec_plan i s with ⟨e, hp, hexec⟩ | ⟨as, hp, hexec⟩
  · exact ⟨_, hexec, by rw [hp]; rfl⟩
  · exact ⟨_, hexec, by rw [hp]; exact coherent_traceAccesses as (s.regs, 0)⟩

/-! ## Substitution (R58) -/

section
variable {σ : Type} {B : Backing σ} (hB : B.Lawful)
include hB

/-- A lawful backing that shows a block's words shows them after both have taken one write. -/
theorem shows_memWrite (m : σ) (b : RegBlock) (r : Reg) (v : Word) (h : B.Shows m b) :
    B.Shows (B.memWrite m r v) (b.set r v) := by
  intro r'
  by_cases hr : r' = r
  · rw [hr, hB.read_write_same, get_set_same]
  · rw [hB.read_write_other m r r' v hr, get_set_other b r r' v hr, h r']

/-- One access on a backing that shows a block's words does on it what it does on the block. -/
theorem access_agrees (a : Access) (m : Progress σ) (n : Progress RegBlock) (h : B.Shows m.1 n.1) (hd : m.2 = n.2) :
    a.events B m.1 = a.events registerBacking n.1 ∧
      B.Shows (a.apply B m).1 (a.apply registerBacking n).1 ∧ (a.apply B m).2 = (a.apply registerBacking n).2 := by
  have hread (r : Reg) : B.memRead m.1 r = registerBacking.memRead n.1 r := h r
  have hwrite (r : Reg) (v : Word) : B.Shows (B.memWrite m.1 r v) (registerBacking.memWrite n.1 r v) :=
    shows_memWrite hB m.1 n.1 r v h
  cases a with
  | load r => exact ⟨by simp only [Access.events, hread], h, hread r⟩
  | store r v => exact ⟨rfl, hwrite r v, hd⟩
  | _ =>
      simp only [Access.events, Access.apply, hread]
      exact ⟨trivial, hwrite _ _, hd⟩

/-- So do any number of accesses. -/
theorem accesses_agree (as : List Access) (m : Progress σ) (n : Progress RegBlock) (h : B.Shows m.1 n.1)
    (hd : m.2 = n.2) :
    traceAccesses B as m = traceAccesses registerBacking as n ∧
      B.Shows (runAccesses B as m).1 (runAccesses registerBacking as n).1 ∧
      (runAccesses B as m).2 = (runAccesses registerBacking as n).2 := by
  induction as generalizing m n with
  | nil => exact ⟨rfl, h, hd⟩
  | cons a as ih =>
      obtain ⟨hevents, hshows, hdata⟩ := access_agrees hB a m n h hd
      obtain ⟨htrace, hrest⟩ := ih _ _ hshows hdata
      exact ⟨by simp only [traceAccesses, hevents, htrace], hrest⟩

end

/-- Settles O39: the accesses agree, and an accepted command is its accesses. -/
theorem lawfulBackingsBehaveAlike : Obligations.LawfulBackingsBehaveAlike := by
  intro σ B m s i as hB hm hp
  obtain ⟨htrace, hshows, hdata⟩ := accesses_agree hB as (m, 0) (s.regs, 0) hm rfl
  rcases exec_plan i s with ⟨e, he, -⟩ | ⟨as', hp', hexec⟩
  · cases he.symm.trans hp
  · cases hp'.symm.trans hp
    exact ⟨_, hexec, hshows, by rw [hdata], by rw [hp]; exact htrace⟩

/-! ## The 28-byte buffer (R51, R54) -/

/-- A byte of the buffer after one byte was replaced. -/
theorem bufferByte_bufferSetByte (m : ByteBuffer) (r r' : Reg) (j k : Fin 4) (v : Byte) :
    bufferByte (bufferSetByte m r j v) r' k = if r.offset + j.val = r'.offset + k.val then v else bufferByte m r' k := by
  simp [bufferByte, bufferSetByte, Vector.getElem_set]

/-- Byte k of a stored word is its bits 8k + 7 to 8k. -/
theorem bufferByte_bufferWrite_same (m : ByteBuffer) (r : Reg) (v : Word) (k : Fin 4) :
    bufferByte (bufferWrite m r v) r k = v.extractLsb' (8 * k.val) 8 := by
  fin_cases k <;> simp [bufferWrite, bufferByte_bufferSetByte]

/-- Registers four bytes long at distinct word boundaries have no byte in common. -/
theorem offset_add_ne (r r' : Reg) (j k : Fin 4) (h : r' ≠ r) : r.offset + j.val ≠ r'.offset + k.val := by
  have hr := offset_mod_four r
  have hr' := offset_mod_four r'
  have hne : r'.offset ≠ r.offset := mt (offset_inj r' r) h
  omega

/-- A stored word leaves the bytes of every other register. -/
theorem bufferByte_bufferWrite_other (m : ByteBuffer) (r r' : Reg) (v : Word) (k : Fin 4) (h : r' ≠ r) :
    bufferByte (bufferWrite m r v) r' k = bufferByte m r' k := by
  simp only [bufferWrite, bufferByte_bufferSetByte, if_neg (offset_add_ne r r' _ k h)]

/-- A word is its four bytes, the highest first. -/
theorem word_eq_bytes (v : Word) :
    v.extractLsb' 24 8 ++ v.extractLsb' 16 8 ++ v.extractLsb' 8 8 ++ v.extractLsb' 0 8 = v := by
  have join (hi lo n : Nat) (h : hi = lo + 8) : v.extractLsb' hi n ++ v.extractLsb' lo 8 = v.extractLsb' lo (n + 8) :=
    BitVec.extractLsb'_append_extractLsb'_eq_extractLsb' h
  rw [join 24 16 8 rfl, join 16 8 _ rfl, join 8 0 _ rfl]
  exact BitVec.extractLsb'_eq_self

/-- Settles O40: a stored word is read back from its own four bytes, and any other word from bytes that were left alone. -/
theorem byteBufferIsALawfulBacking : Obligations.ByteBufferIsALawfulBacking := by
  refine ⟨⟨fun m r v => ?_, fun m r r' v h => ?_⟩, bufferByte_bufferWrite_same⟩
  · show bufferRead (bufferWrite m r v) r = v
    simp only [bufferRead, bufferByte_bufferWrite_same]
    exact word_eq_bytes v
  · show bufferRead (bufferWrite m r v) r' = bufferRead m r'
    simp only [bufferRead, bufferByte_bufferWrite_other m r r' v _ h]

end Sys2Proof.Proofs
end

section
/-! Two setters one after the other, and the frames of `read` and `write`: what a masked write of BRR is bit by bit, when two of
them commute, and which bytes an access layer command leaves (40_field_setters.md R107, R108; 20_memory.md R54, R55). -/

namespace Sys2Proof.Proofs

open Machine

/-! ## Masked writes one after the other -/

/-- A masked write bit by bit, when the image lies inside the field: the image in the field, the old value outside. -/
theorem getLsbD_maskClearThenSet (old mask image : Word) (himage : image &&& mask = image) (k : Nat) :
    (maskClearThenSet old mask image).getLsbD k = if mask.getLsbD k then image.getLsbD k else old.getLsbD k := by
  cases hk : mask.getLsbD k with
  | false => exact getLsbD_maskClearThenSet_outside old mask image k himage hk
  | true => simp [maskClearThenSet, hk]

/-- Of two masked writes of one field the later wins. -/
theorem maskClearThenSet_overwrite (old mask x y : Word) (hx : x &&& mask = x) :
    maskClearThenSet (maskClearThenSet old mask x) mask y = maskClearThenSet old mask y := by
  rw [maskClearThenSet, maskClearThenSet_and_not_mask old mask x hx, ← maskClearThenSet]

/-- Masked writes of fields with no bit in common commute. -/
theorem maskClearThenSet_comm (old m n x y : Word) (hx : x &&& m = x) (hy : y &&& n = y) (hmn : m &&& n = 0) :
    maskClearThenSet (maskClearThenSet old m x) n y = maskClearThenSet (maskClearThenSet old n y) m x := by
  apply BitVec.eq_of_getLsbD_eq
  intro k _
  simp only [getLsbD_maskClearThenSet _ _ _ hx, getLsbD_maskClearThenSet _ _ _ hy]
  have hdisjoint : (m.getLsbD k && n.getLsbD k) = false := by
    rw [← BitVec.getLsbD_and, hmn]
    exact BitVec.getLsbD_zero
  cases hm : m.getLsbD k with
  | false => simp
  | true =>
      have hn : n.getLsbD k = false := by simpa [hm] using hdisjoint
      simp [hn]

/-! ## A setter as a function on BRR -/

/-- BRR after a setter: a masked write of the operand's image when it is accepted, the old value when it is refused. -/
def brrAfter (i : Instr) (b : Word) : Word :=
  if i.accepted then maskClearThenSet b i.fieldMask i.fieldContents else b

theorem brrAfter_of_accepted (i : Instr) (b : Word) (h : i.accepted = true) :
    brrAfter i b = maskClearThenSet b i.fieldMask i.fieldContents := if_pos h

theorem brrAfter_of_refused (i : Instr) (b : Word) (h : i.accepted = false) : brrAfter i b = b := by
  simp [brrAfter, h]

theorem accepted_of_run (i : Instr) (as : List Access) (h : planOf i = .run as) : i.accepted = true := by
  simp [Instr.accepted, h, Plan.status]

theorem accepted_of_refuse (i : Instr) (e : CommandError) (h : planOf i = .refuse e) : i.accepted = false := by
  simp [Instr.accepted, h, Plan.status]

theorem refuse_of_not_accepted (i : Instr) (h : i.accepted = false) : ∃ e, planOf i = .refuse e := by
  cases hp : planOf i with
  | refuse e => exact ⟨e, rfl⟩
  | run as => cases (accepted_of_run i as hp).symm.trans h

/-- An accepted setter's image lies inside its field. -/
theorem fieldContents_and_fieldMask (i : Instr) (hi : i.isSetter = true) (hacc : i.accepted = true) :
    i.fieldContents &&& i.fieldMask = i.fieldContents := by
  rcases planOf_setter_cases i hi with ⟨e, hp⟩ | ⟨-, himage⟩
  · cases (accepted_of_refuse i e hp).symm.trans hacc
  · exact himage

/-- A setter changes BRR as `brrAfter` says and gives a response that depends on its operand alone. -/
theorem exec_setter_brrAfter (i : Instr) (hi : i.isSetter = true) :
    ∃ r, ∀ s : State, exec i s = .next { s with
      regs := { s.regs with brr := brrAfter i s.regs.brr }
      response := some r } := by
  rcases planOf_setter_cases i hi with ⟨e, hp⟩ | ⟨hp, -⟩
  · refine ⟨⟨.error e, 0⟩, fun s => ?_⟩
    rw [brrAfter_of_refused i _ (accepted_of_refuse i e hp)]
    exact (exec_refused i e s hp).1
  · refine ⟨⟨.ok, 0⟩, fun s => ?_⟩
    rw [brrAfter_of_accepted i _ (accepted_of_run i _ hp)]
    exact (exec_setter_setField i s _ _ hi hp).1

/-- The masks of the four fields (10_state.md R24). -/
def fieldMasks : List Word := [0x0000000F, 0x00000030, 0x00000100, 0x0000F000]

theorem fieldMask_mem (i : Instr) (hi : i.isSetter = true) : i.fieldMask ∈ fieldMasks := by
  cases i with
  | initUart _ _ _ _ => cases hi
  | read _ => cases hi
  | write _ _ => cases hi
  | _ => simp [Instr.fieldMask, fieldMasks]

/-- A setter keeps the bits outside its field. -/
theorem brrAfter_and_outside (i : Instr) (b kept : Word) (hi : i.isSetter = true) (h : ~~~i.fieldMask &&& kept = kept) :
    brrAfter i b &&& kept = b &&& kept := by
  cases hacc : i.accepted with
  | false => rw [brrAfter_of_refused i b hacc]
  | true =>
      have himage := fieldContents_and_fieldMask i hi hacc
      rw [brrAfter_of_accepted i b hacc, ← h, ← BitVec.and_assoc, maskClearThenSet_and_not_mask b _ _ himage,
        BitVec.and_assoc]

/-- No setter owns a bit of 0xFFFF0EC0 (10_state.md R31). -/
theorem brrAfter_and_unowned (i : Instr) (b : Word) (hi : i.isSetter = true) :
    brrAfter i b &&& 0xFFFF0EC0#32 = b &&& 0xFFFF0EC0#32 := by
  have hlisted : ∀ mask ∈ fieldMasks, ~~~mask &&& 0xFFFF0EC0#32 = 0xFFFF0EC0#32 := by simp [fieldMasks]
  exact brrAfter_and_outside i b _ hi (hlisted _ (fieldMask_mem i hi))

/-- Different fields have no bit in common. -/
theorem fieldMask_disjoint (i j : Instr) (hi : i.isSetter = true) (hj : j.isSetter = true)
    (h : i.fieldMask ≠ j.fieldMask) : i.fieldMask &&& j.fieldMask = 0 := by
  have hpairs : fieldMasks.Pairwise fun m n => m &&& n = 0 := by decide
  have : Std.Symm fun m n : Word => m &&& n = 0 := ⟨fun m n hmn => (BitVec.and_comm n m).trans hmn⟩
  exact hpairs.forall (fieldMask_mem i hi) (fieldMask_mem j hj) h

/-- Setters of different fields commute on BRR. -/
theorem brrAfter_comm (i j : Instr) (b : Word) (hi : i.isSetter = true) (hj : j.isSetter = true)
    (h : i.fieldMask ≠ j.fieldMask) : brrAfter j (brrAfter i b) = brrAfter i (brrAfter j b) := by
  cases hai : i.accepted with
  | false => simp only [brrAfter_of_refused i _ hai]
  | true =>
      cases haj : j.accepted with
      | false => simp only [brrAfter_of_refused j _ haj]
      | true =>
          simp only [brrAfter_of_accepted i _ hai, brrAfter_of_accepted j _ haj]
          exact maskClearThenSet_comm b _ _ _ _ (fieldContents_and_fieldMask i hi hai)
            (fieldContents_and_fieldMask j hj haj) (fieldMask_disjoint i j hi hj h)

/-- An accepted setter hides any earlier setter of its field. -/
theorem brrAfter_overwrite (i j : Instr) (b : Word) (hi : i.isSetter = true) (h : i.fieldMask = j.fieldMask)
    (haj : j.accepted = true) : brrAfter j (brrAfter i b) = brrAfter j b := by
  cases hai : i.accepted with
  | false => rw [brrAfter_of_refused i b hai]
  | true =>
      have himage := fieldContents_and_fieldMask i hi hai
      simp only [brrAfter_of_accepted i _ hai, brrAfter_of_accepted j _ haj, ← h]
      exact maskClearThenSet_overwrite b _ _ _ himage

/-- Doing a setter again leaves BRR as it is. -/
theorem brrAfter_idempotent (i : Instr) (b : Word) (hi : i.isSetter = true) : brrAfter i (brrAfter i b) = brrAfter i b := by
  cases hai : i.accepted with
  | false => simp only [brrAfter_of_refused i _ hai]
  | true => exact brrAfter_overwrite i i b hi rfl hai

/-- Settles O21: each order composes the two functions on BRR, which commute, or of which the later hides the earlier. -/
theorem settersOfDifferentFieldsCommute : Obligations.SettersOfDifferentFieldsCommute := by
  intro i j s hi hj
  obtain ⟨ri, hexeci⟩ := exec_setter_brrAfter i hi
  obtain ⟨rj, hexecj⟩ := exec_setter_brrAfter j hj
  refine ⟨_, _, _, _, hexeci _, hexecj _, hexecj _, hexeci _, fun hne => ?_, fun heq hacc => ?_⟩
  · simp only [brrAfter_comm i j s.regs.brr hi hj hne]
  · simp only [brrAfter_overwrite i j s.regs.brr hi heq hacc]

/-- Settles O22: the second time BRR is as the first time left it, and the response is the operand's again. -/
theorem settersAreIdempotent : Obligations.SettersAreIdempotent := by
  intro i s t hi h
  obtain ⟨r, hexec⟩ := exec_setter_brrAfter i hi
  cases (hexec s).symm.trans h
  rw [hexec]
  simp only [brrAfter_idempotent i s.regs.brr hi]

/-! ## The frames of read and write (R54, R55) -/

/-- Settles O35: the offsets by evaluation. -/
theorem registerOffsetsAreFixed : Obligations.RegisterOffsetsAreFixed := ⟨rfl, rfl, rfl, rfl, rfl, rfl, rfl⟩

/-- Settles O32: a read changes the response alone, and to one that the registers determine. -/
theorem readChangesNothing : Obligations.ReadChangesNothing := by
  intro addr s
  cases hreg : regAt addr with
  | none =>
      have hexec (s : State) := (exec_refused (.read addr) _ s (readPlan_none addr hreg)).1
      exact ⟨_, hexec s, rfl, rfl, rfl, fun _ => rfl, hexec _⟩
  | some r =>
      have hexec (s : State) := (exec_read_of_regAt addr r s hreg).1
      exact ⟨_, hexec s, rfl, rfl, rfl, fun _ => rfl, hexec _⟩

/-- Settles O33: a refused write changes the response alone, an accepted one the register of its address. -/
theorem writeChangesOnlyItsWord : Obligations.WriteChangesOnlyItsWord := by
  intro addr data s
  cases hreg : regAt addr with
  | none =>
      have hexec := (exec_refused (.write addr data) _ s (writePlan_none addr data hreg)).1
      exact ⟨_, hexec, rfl, rfl, nofun, fun _ _ => rfl⟩
  | some r =>
      have hexec := (exec_write_of_regAt addr data r s hreg).1
      have haddr := (regAt_eq_some addr r).mp hreg
      refine ⟨_, hexec, rfl, rfl, ?_, nofun⟩
      rintro _ ⟨⟩
      refine ⟨get_set_same _ r data, fun r' hr' => get_set_other _ r r' data hr', fun k hk => ?_, fun a ha => ?_⟩
      · rw [haddr]
        refine (byteAt_offset_add (s.regs.set r data) r k hk).trans ?_
        rw [get_set_same]
      · exact byteAt_set_outside s.regs r data a (haddr ▸ ha)

end Sys2Proof.Proofs
end

section
/-! `init_uart`: the registers an accepted one leaves, in closed form, the accesses it makes, its refusals, and that it packs BRR as
the four setters do (41_init.md; 60_exceptions.md R149). -/

namespace Sys2Proof.Proofs

open Machine

/-! ## Which operands are accepted (R120, R149) -/

/-- An accepted `init_uart` has a supported rate, a legal parity code and a count that fits its field. -/
theorem operands_of_accepted_initUart (baud : BitVec 32) (par : BitVec 2) (flow : BitVec 1) (stop : BitVec 8)
    (h : (Instr.initUart baud par flow stop).accepted = true) :
    ∃ c, baudCode baud = some c ∧ par ≠ 3#2 ∧ stop ≤ 15#8 := by
  have hrefuse (e : CommandError) : initUartPlan baud par flow stop ≠ .refuse e :=
    fun he => Bool.false_ne_true ((accepted_of_refuse (.initUart baud par flow stop) e he).symm.trans h)
  cases hbaud : baudCode baud with
  | none => exact absurd (initUartPlan_badBaud baud par flow stop hbaud) (hrefuse _)
  | some c =>
      have hpar : par ≠ 3#2 := by
        rintro rfl
        exact hrefuse _ (initUartPlan_badParity baud flow stop c hbaud)
      have hstop : stop ≤ 15#8 := by
        by_contra hlarge
        exact hrefuse _ (initUartPlan_badStop baud par flow stop c hbaud hpar (BitVec.not_le.mp hlarge))
      exact ⟨c, rfl, hpar, hstop⟩

/-- Settles O26: the plan's checks come in that order. -/
theorem initUartReportsTheFirstBadOperand : Obligations.InitUartReportsTheFirstBadOperand := by
  intro baud par flow stop
  refine ⟨fun hbaud => ?_, fun hbaud hpar => ?_, fun hbaud hpar hstop => ?_⟩
  · exact congrArg Plan.status (initUartPlan_badBaud baud par flow stop hbaud)
  · obtain ⟨c, hc⟩ := Option.ne_none_iff_exists'.mp hbaud
    subst hpar
    exact congrArg Plan.status (initUartPlan_badParity baud flow stop c hc)
  · obtain ⟨c, hc⟩ := Option.ne_none_iff_exists'.mp hbaud
    exact congrArg Plan.status (initUartPlan_badStop baud par flow stop c hc hpar hstop)

/-- A bad operand refuses the whole command, with the error of a check that fails. -/
theorem initUartPlan_refused (baud : BitVec 32) (par : BitVec 2) (flow : BitVec 1) (stop : BitVec 8)
    (h : baudCode baud = none ∨ par = 3#2 ∨ 15#8 < stop) :
    ∃ e, planOf (.initUart baud par flow stop) = .refuse e ∧
      ((e = .unsupportedBaudRate ∧ baudCode baud = none) ∨ (e = .invalidParityCode ∧ par = 3#2) ∨
        (e = .invalidFieldValue ∧ 15#8 < stop)) := by
  cases hbaud : baudCode baud with
  | none => exact ⟨_, initUartPlan_badBaud baud par flow stop hbaud, .inl ⟨rfl, rfl⟩⟩
  | some c =>
      by_cases hpar : par = 3#2
      · subst hpar
        exact ⟨_, initUartPlan_badParity baud flow stop c hbaud, .inr (.inl ⟨rfl, rfl⟩)⟩
      · have hstop : 15#8 < stop := by simpa [hbaud, hpar] using h
        exact ⟨_, initUartPlan_badStop baud par flow stop c hbaud hpar hstop, .inr (.inr ⟨rfl, hstop⟩)⟩

/-- Settles O25: the word as an or of its shifted operands, then the refused plan. -/
theorem initUartRefusesWhole : Obligations.InitUartRefusesWhole := by
  intro baud par flow stop s
  refine ⟨by simp [encode, Laws.formatF_eq_or], fun hbad => ?_⟩
  obtain ⟨e, hp, hcheck⟩ := initUartPlan_refused baud par flow stop hbad
  obtain ⟨hexec, htrace⟩ := exec_refused _ e s hp
  exact ⟨e, hexec, htrace, hcheck⟩

/-! ## What an accepted one leaves (R121, R122, R124, R125) -/

/-- BRR as `init_uart` packs it: zero, then the four masked writes (R121). -/
def packBrr (code : BitVec 4) (par : BitVec 2) (flow : BitVec 1) (stop : BitVec 8) : Word :=
  maskClearThenSet
    (maskClearThenSet
      (maskClearThenSet (maskClearThenSet 0#32 baudMask (fieldImage code baudPos)) parityMask (fieldImage par parityPos))
      flowMask (fieldImage flow flowPos))
    stopMask (fieldImage stop stopPos)

/-- The registers after an accepted `init_uart` (R121, R122). -/
def initRegs (b : RegBlock) (code : BitVec 4) (par : BitVec 2) (flow : BitVec 1) (stop : BitVec 8) : RegBlock :=
  { rsvd0 := b.rsvd0
    brr := packBrr code par flow stop
    ter := b.ter ||| terTE
    rer := b.rer &&& ~~~rerErr
    ier := b.ier ||| ierEn
    tdr := 0
    rdr := 0 }

/-- The seventeen accesses leave those registers. -/
theorem runAccesses_initUartAccesses (code : BitVec 4) (par : BitVec 2) (flow : BitVec 1) (stop : BitVec 8)
    (m : Progress RegBlock) :
    runAccesses registerBacking (initUartAccesses code par flow stop) m = (initRegs m.1 code par flow stop, m.2) := rfl

/-- Executing an `init_uart` whose operands are all legal (R124). -/
theorem exec_initUart (baud : BitVec 32) (par : BitVec 2) (flow : BitVec 1) (stop : BitVec 8) (c : BitVec 4) (s : State)
    (hbaud : baudCode baud = some c) (hpar : par ≠ 3#2) (hstop : stop ≤ 15#8) :
    exec (.initUart baud par flow stop) s = .next { s with
      regs := initRegs s.regs c par flow stop
      configured := true
      response := some ⟨.ok, 0⟩ } := by
  have hp : planOf (.initUart baud par flow stop) = .run (initUartAccesses c par flow stop) :=
    initUartPlan_ok baud par flow stop c hbaud hpar hstop
  rw [exec_eq_perform, hp, perform_run, runAccesses_initUartAccesses]
  rfl

/-- Clearing a field that is clear changes nothing. -/
theorem and_not_of_clear (old mask : Word) (h : old &&& mask = 0) : old &&& ~~~mask = old := by
  calc
    old &&& ~~~mask = (old &&& mask) ||| (old &&& ~~~mask) := by rw [h]; exact BitVec.zero_or.symm
    _ = old := by rw [← BitVec.and_or_distrib_left, BitVec.or_not_self, BitVec.and_allOnes]

/-- A masked write to a field that is clear only adds the image. -/
theorem maskClearThenSet_of_clear (old mask image : Word) (h : old &&& mask = 0) :
    maskClearThenSet old mask image = old ||| image := by
  rw [maskClearThenSet, and_not_of_clear old mask h]

/-- The image of a value misses a mask that the field of all its bits misses. -/
theorem fieldImage_and_eq_zero {n : Nat} (v : BitVec n) (pos : Nat) (mask : Word)
    (h : fieldImage (BitVec.allOnes n) pos &&& mask = 0) : fieldImage v pos &&& mask = 0 := by
  have hinside : fieldImage v pos &&& fieldImage (BitVec.allOnes n) pos = fieldImage v pos := by
    rw [fieldImage_and, BitVec.and_allOnes]
  rw [← hinside, BitVec.and_assoc, h]
  exact BitVec.and_zero

/-- The packed value is the or of the four images (R125). -/
theorem packBrr_eq_or (code : BitVec 4) (par : BitVec 2) (flow : BitVec 1) (stop : BitVec 8) :
    packBrr code par flow stop =
      code.setWidth 32 ||| (par.setWidth 32 <<< 4) ||| (flow.setWidth 32 <<< 8) ||| (stop.setWidth 32 <<< 12) := by
  have hcode (mask : Word) (h : (0xF : Word) &&& mask = 0) := fieldImage_and_eq_zero code baudPos mask h
  have hpar (mask : Word) (h : (0x30 : Word) &&& mask = 0) := fieldImage_and_eq_zero par parityPos mask h
  have hflow (mask : Word) (h : (0x100 : Word) &&& mask = 0) := fieldImage_and_eq_zero flow flowPos mask h
  have hclearFlow : (fieldImage code baudPos ||| fieldImage par parityPos) &&& flowMask = 0 := by
    rw [BitVec.and_or_distrib_right, hcode flowMask rfl, hpar flowMask rfl]
    rfl
  have hclearStop :
      (fieldImage code baudPos ||| fieldImage par parityPos ||| fieldImage flow flowPos) &&& stopMask = 0 := by
    rw [BitVec.and_or_distrib_right, BitVec.and_or_distrib_right, hcode stopMask rfl, hpar stopMask rfl,
      hflow stopMask rfl]
    rfl
  rw [packBrr, maskClearThenSet_of_clear 0#32 baudMask _ rfl, BitVec.zero_or,
    maskClearThenSet_of_clear _ parityMask _ (hcode parityMask rfl), maskClearThenSet_of_clear _ flowMask _ hclearFlow,
    maskClearThenSet_of_clear _ stopMask _ hclearStop, baudPos, fieldImage_zero]
  rfl

/-- Settles O24: the closed form of the registers, and the trace of the seventeen accesses sorted by register. -/
theorem initUartConfiguresTheBlock : Obligations.InitUartConfiguresTheBlock := by
  intro baud par flow stop c s hbaud hpar hstop
  have hp : planOf (.initUart baud par flow stop) = .run (initUartAccesses c par flow stop) :=
    initUartPlan_ok baud par flow stop c hbaud hpar hstop
  refine ⟨?_, ?_⟩
  · rw [exec_initUart baud par flow stop c s hbaud hpar hstop, initRegs, packBrr_eq_or]
    rfl
  · rw [hp]
    refine ⟨⟨_, _, _, _, rfl, ?_, rfl, rfl, rfl⟩, rfl, rfl, rfl, rfl, rfl, rfl, rfl⟩
    exact congrArg _ (fieldImage_zero c)

/-- The packed value is what the four setters make of a BRR of zero. -/
theorem packBrr_eq_setters (baud : BitVec 32) (par : BitVec 2) (flow : BitVec 1) (stop : BitVec 8) (c : BitVec 4)
    (hbaud : baudCode baud = some c) (hpar : par ≠ 3#2) (hstop : stop ≤ 15#8) :
    packBrr c par flow stop =
      brrAfter (.setStopBits stop) (brrAfter (.enableHwFlowControl flow)
        (brrAfter (.setParity par) (brrAfter (.setBaudRate baud) 0))) := by
  have himage : (Instr.setBaudRate baud).fieldContents = fieldImage c baudPos := by
    simp [Instr.fieldContents, hbaud, fieldImage, baudPos]
  rw [brrAfter_of_accepted _ _ (accepted_of_run (.setBaudRate baud) _ (setBaudRatePlan_some baud c hbaud)),
    brrAfter_of_accepted _ _ (accepted_of_run (.setParity par) _ (setParityPlan_ok par hpar)),
    brrAfter_of_accepted _ _ (accepted_of_run (.enableHwFlowControl flow) _ rfl),
    brrAfter_of_accepted _ _ (accepted_of_run (.setStopBits stop) _ (setStopBitsPlan_ok stop hstop)), himage]
  rfl

/-- Settles O28: the closed form depends on the start state in TER, IER and RER alone, whose named bits it sets or clears. -/
theorem initUartEstablishesForEveryStart : Obligations.InitUartEstablishesForEveryStart := by
  intro baud par flow stop s s' haccepted
  obtain ⟨c, hbaud, hpar, hstop⟩ := operands_of_accepted_initUart baud par flow stop haccepted
  refine ⟨_, _, exec_initUart baud par flow stop c s hbaud hpar hstop, exec_initUart baud par flow stop c s' hbaud hpar hstop,
    rfl, ?_, ?_, ?_, ?_, ?_, ?_, rfl, rfl, rfl⟩
  · show packBrr c par flow stop &&& 0xFFFF0EC0#32 = 0
    rw [packBrr_eq_setters baud par flow stop c hbaud hpar hstop]
    rw [brrAfter_and_unowned _ _ rfl, brrAfter_and_unowned _ _ rfl, brrAfter_and_unowned _ _ rfl,
      brrAfter_and_unowned _ _ rfl]
    rfl
  all_goals simp [initRegs, terTE, ierEn, rerErr]

/-! ## The frame of init_uart (R122) -/

/-- Settles O27: a refused `init_uart` changes the response alone; the registers of an accepted one keep RSVD0, with its bytes,
and every bit of TER, IER and RER that the command does not name. -/
theorem initUartKeepsWhatItDoesNotName : Obligations.InitUartKeepsWhatItDoesNotName := by
  intro baud par flow stop s
  cases haccepted : (Instr.initUart baud par flow stop).accepted with
  | false =>
      obtain ⟨e, hp⟩ := refuse_of_not_accepted _ haccepted
      exact ⟨_, (exec_refused _ e s hp).1, rfl, rfl, fun _ _ => rfl, fun _ _ _ => rfl, fun _ _ _ => rfl, fun _ _ => rfl,
        fun _ => ⟨rfl, fun _ => rfl⟩⟩
  | true =>
      obtain ⟨c, hbaud, hpar, hstop⟩ := operands_of_accepted_initUart baud par flow stop haccepted
      have hter : terTE = BitVec.twoPow 32 23 := rfl
      have hier : ierEn = BitVec.twoPow 32 14 ||| BitVec.twoPow 32 15 := rfl
      have hrer : rerErr = BitVec.twoPow 32 3 ||| BitVec.twoPow 32 5 := rfl
      refine ⟨_, exec_initUart baud par flow stop c s hbaud hpar hstop, rfl, rfl, fun k hk => ?_, fun k hk₁ hk₂ => ?_,
        fun k hk₁ hk₂ => ?_, fun a ha => ?_, nofun⟩
      · simp [initRegs, hter, hk.symm]
      · simp [initRegs, hier, hk₁.symm, hk₂.symm]
      · simpa [initRegs, hrer, hk₁.symm, hk₂.symm] using s.regs.rer.lt_of_getLsbD (i := k)
      · rcases ha with hlow | hhigh
        · have hbyte (b : RegBlock) := byteAt_offset_add b .rsvd0 a hlow
          rw [Reg.offset, Nat.zero_add] at hbyte
          exact (hbyte _).trans (hbyte s.regs).symm
        · exact (byteAt_beyond _ a hhigh).trans (byteAt_beyond s.regs a hhigh).symm

/-! ## init_uart and the setters (R86) -/

/-- Settles O29: after `write` 0 each setter applies its function to BRR, and the four together make the packed value. -/
theorem initUartPacksBrrAsTheSettersDo : Obligations.InitUartPacksBrrAsTheSettersDo := by
  intro baud par flow stop s haccepted
  obtain ⟨c, hbaud, hpar, hstop⟩ := operands_of_accepted_initUart baud par flow stop haccepted
  have hinit := exec_initUart baud par flow stop c s hbaud hpar hstop
  have hwrite := (exec_write_of_regAt 0x04 0 .brr s (regAt_offset .brr)).1
  obtain ⟨_, hsetBaud⟩ := exec_setter_brrAfter (.setBaudRate baud) rfl
  obtain ⟨_, hsetParity⟩ := exec_setter_brrAfter (.setParity par) rfl
  obtain ⟨_, hsetFlow⟩ := exec_setter_brrAfter (.enableHwFlowControl flow) rfl
  obtain ⟨_, hsetStop⟩ := exec_setter_brrAfter (.setStopBits stop) rfl
  exact ⟨_, _, _, _, _, _, hinit, hwrite, hsetBaud _, hsetParity _, hsetFlow _, hsetStop _,
    packBrr_eq_setters baud par flow stop c hbaud hpar hstop, rfl, rfl⟩

end Sys2Proof.Proofs
end

section
/-! Runs over presented words: what a relation kept by every command says of a whole run, the word a later `read` answers, and the
last operands BRR holds after a run (42_access.md R132; 40_field_setters.md R110). -/

namespace Sys2Proof.Proofs

open Machine

/-! ## A run over presented words -/

/-- Every command completes and takes no word from the port itself. -/
theorem exec_completes (i : Instr) (s : State) : ∃ t, exec i s = .next t ∧ t.commands = s.commands := by
  rcases exec_plan i s with ⟨e, -, hexec⟩ | ⟨as, -, hexec⟩
  · exact ⟨_, hexec, rfl⟩
  · exact ⟨_, hexec, rfl⟩

theorem commandsOf_cons_command (w : Command) (ws : List Command) (i : Instr) (h : decode w = .command i) :
    commandsOf (w :: ws) = i :: commandsOf ws := by
  simp [commandsOf, h]

theorem commandsOf_cons_illegal (w : Command) (ws : List Command) (why : IllegalReason) (h : decode w = .illegal why) :
    commandsOf (w :: ws) = commandsOf ws := by
  simp [commandsOf, h]

/-- A step on an illegal word leaves the registers as they are. -/
theorem step_illegal (s : State) (w : Command) (ws : List Command) (why : IllegalReason) (hw : s.commands = w :: ws)
    (hd : decode w = .illegal why) :
    step s = .next { s with commands := ws, response := some ⟨.error .illegalCommand, 0⟩ } :=
  (step_refused s w ws .illegalCommand hw (by simp [wordPlan, hd])).1

/-- A run that takes all the words `ws` relates the registers before and after it through the commands of `ws`, for any relation
that holds of no command and can be extended by a command at the front. -/
theorem run_presented (R : RegBlock → List Instr → RegBlock → Prop) (hnil : ∀ b, R b [] b)
    (hcons : ∀ (i : Instr) (s t : State) (is : List Instr) (c : RegBlock),
      exec i s = .next t → R t.regs is c → R s.regs (i :: is) c)
    (ws rest : List Command) (s : State) (hs : s.commands = ws ++ rest) :
    ∃ t, Host.Core.run core ws.length s = .next t ∧ t.commands = rest ∧ R s.regs (commandsOf ws) t.regs := by
  induction ws generalizing s with
  | nil => exact ⟨s, rfl, hs, hnil s.regs⟩
  | cons w ws ih =>
      cases hd : decode w with
      | command i =>
          obtain ⟨u, hexec, hu⟩ := exec_completes i { s with commands := ws ++ rest }
          have hstep := (stepRunsTheDecodedCommand s w _ i hs hd).trans hexec
          obtain ⟨t, hrun, ht, hR⟩ := ih u hu
          rw [commandsOf_cons_command w ws i hd]
          exact ⟨t, (run_succ ws.length s u hstep).trans hrun, ht, hcons i { s with commands := ws ++ rest } u _ _ hexec hR⟩
      | illegal why =>
          have hstep := step_illegal s w (ws ++ rest) why hs hd
          obtain ⟨t, hrun, ht, hR⟩ := ih
            { s with commands := ws ++ rest, response := some ⟨.error .illegalCommand, 0⟩ } rfl
          rw [commandsOf_cons_illegal w ws why hd]
          exact ⟨t, (run_succ ws.length s _ hstep).trans hrun, ht, hR⟩

/-- A run and then one more step. -/
theorem run_then_step (n : Nat) (s t u : State) (hrun : Host.Core.run core n s = .next t) (hstep : step t = .next u) :
    Host.Core.run core (n + 1) s = .next u := by
  induction n generalizing s with
  | zero =>
      cases hrun
      exact run_succ 0 _ u hstep
  | succ n ih =>
      obtain ⟨v, hv⟩ := step_completes s
      exact (run_succ (n + 1) s v hv).trans (ih v ((run_succ n s v hv).symm.trans hrun))

/-! ## A read after a write (R132) -/

/-- A command that may not write a register keeps its word. -/
theorem exec_keeps_unwritten (i : Instr) (s t : State) (r : Reg) (h : exec i s = .next t) (hr : i.mayWrite r = false) :
    t.regs.get r = s.regs.get r := by
  have hsetter (hi : i.isSetter = true) (hne : r ≠ .brr) : t.regs.get r = s.regs.get r := by
    obtain ⟨t', hexec, hregs, -⟩ := settersTouchOnlyTheirField i s hi
    cases hexec.symm.trans h
    exact hregs r hne
  cases i with
  | initUart baud par flow stop =>
      obtain ⟨t', hexec, hrsvd0, -⟩ := initUartKeepsWhatItDoesNotName baud par flow stop s
      cases hexec.symm.trans h
      have hrsvd : r = .rsvd0 := by simpa [Instr.mayWrite] using hr
      rw [hrsvd]
      exact hrsvd0
  | read addr =>
      obtain ⟨t', hexec, hregs, -⟩ := readChangesNothing addr s
      cases hexec.symm.trans h
      rw [hregs]
  | write addr data =>
      have hne : regAt addr ≠ some r := by simpa [Instr.mayWrite] using hr
      cases hreg : regAt addr with
      | none =>
          cases (exec_refused (.write addr data) _ s (writePlan_none addr data hreg)).1.symm.trans h
          rfl
      | some r' =>
          cases (exec_write_of_regAt addr data r' s hreg).1.symm.trans h
          exact get_set_other _ _ _ _ fun heq => hne (heq ▸ hreg)
  | _ => exact hsetter rfl (by simpa [Instr.mayWrite] using hr)

/-- The register holds the same word before and after commands none of which may write it. -/
def KeepsUnwritten (r : Reg) (b : RegBlock) (is : List Instr) (c : RegBlock) : Prop :=
  (∀ i ∈ is, i.mayWrite r = false) → c.get r = b.get r

theorem keepsUnwritten_cons (r : Reg) (i : Instr) (s t : State) (is : List Instr) (c : RegBlock) (h : exec i s = .next t)
    (hrest : KeepsUnwritten r t.regs is c) : KeepsUnwritten r s.regs (i :: is) c := by
  intro hall
  obtain ⟨hi, his⟩ := List.forall_mem_cons.mp hall
  exact (hrest his).trans (exec_keeps_unwritten i s t r h hi)

/-- Settles O34: the write puts the datum into the register, the words between keep it there, the read answers it. -/
theorem readReturnsTheLatestWrite : Obligations.ReadReturnsTheLatestWrite := by
  intro s addr data r between rest hreg hs hbetween
  have hwrite := stepRunsTheDecodedCommand s _ _ _ hs (decode_encode (.write addr data))
  rw [(exec_write_of_regAt addr data r _ hreg).1] at hwrite
  obtain ⟨v, hrun, hv, hkeeps⟩ := run_presented (KeepsUnwritten r) (fun _ _ => rfl) (keepsUnwritten_cons r) between
    (encode (.read addr) :: rest) { s with
      regs := s.regs.set r data
      commands := between ++ encode (.read addr) :: rest
      response := some ⟨.ok, 0⟩ } rfl
  have hread := stepRunsTheDecodedCommand v _ _ _ hv (decode_encode (.read addr))
  rw [(exec_read_of_regAt addr r _ hreg).1] at hread
  have hdata : v.regs.get r = data := (hkeeps hbetween).trans (get_set_same _ r data)
  refine ⟨_, (run_succ _ s _ hwrite).trans (run_then_step _ _ _ _ hrun hread), ?_, rfl⟩
  rw [← hdata]

/-! ## The fields of BRR after one command (R110) -/

/-- Words that agree under a mask agree in a field the mask covers. -/
theorem extractLsb'_eq_of_and_eq {x y mask : Word} (lo n : Nat) (h : x &&& mask = y &&& mask)
    (hcovers : mask.extractLsb' lo n = BitVec.allOnes n) : x.extractLsb' lo n = y.extractLsb' lo n := by
  have hfield (x : Word) : (x &&& mask).extractLsb' lo n = x.extractLsb' lo n := by
    rw [BitVec.extractLsb'_and, hcovers, BitVec.and_allOnes]
  rw [← hfield x, h, hfield y]

/-- A value is read back from the field its image lies in. -/
theorem extractLsb'_fieldImage {n : Nat} (v : BitVec n) (pos m : Nat) (h : pos + m ≤ 32) :
    (fieldImage v pos).extractLsb' pos m = v.setWidth m := by
  apply Laws.field_eq
  intro k hk
  simp [fieldImage, hk, show pos + k < 32 by omega]

/-- A setter leaves a field that its own misses. -/
theorem extractLsb'_brrAfter_outside (i : Instr) (b kept : Word) (lo n : Nat) (hi : i.isSetter = true)
    (hcovers : kept.extractLsb' lo n = BitVec.allOnes n) (mask : Word) (hfield : i.fieldMask = mask)
    (hmisses : kept &&& mask = 0) : (brrAfter i b).extractLsb' lo n = b.extractLsb' lo n := by
  have hkept : ~~~i.fieldMask &&& kept = kept := by
    rw [hfield, BitVec.and_comm]
    exact and_not_of_clear kept mask hmisses
  exact extractLsb'_eq_of_and_eq lo n (brrAfter_and_outside i b kept hi hkept) hcovers

/-- An accepted setter's field holds the operand's image. -/
theorem extractLsb'_brrAfter_inside (i : Instr) (b mask : Word) (lo n : Nat) (hi : i.isSetter = true)
    (hacc : i.accepted = true) (hfield : i.fieldMask = mask) (hcovers : mask.extractLsb' lo n = BitVec.allOnes n) :
    (brrAfter i b).extractLsb' lo n = i.fieldContents.extractLsb' lo n := by
  have himage := fieldContents_and_fieldMask i hi hacc
  refine extractLsb'_eq_of_and_eq lo n ?_ hcovers
  rw [brrAfter_of_accepted i b hacc, ← hfield, maskClearThenSet_and_mask b _ _ himage, himage]

/-- BRR.BAUD after `set_baud_rate`: the rate's code, or its old value for an unsupported rate. -/
theorem brrAfter_setBaudRate_field (baud : BitVec 32) (b : Word) :
    (brrAfter (.setBaudRate baud) b).extractLsb' 0 4 = (baudCode baud).getD (b.extractLsb' 0 4) := by
  cases hb : baudCode baud with
  | none =>
      rw [brrAfter_of_refused _ b (accepted_of_refuse (.setBaudRate baud) _ (setBaudRatePlan_none baud hb))]
      rfl
  | some c =>
      have hacc := accepted_of_run (.setBaudRate baud) _ (setBaudRatePlan_some baud c hb)
      have himage : (Instr.setBaudRate baud).fieldContents = fieldImage c 0 := by
        simp [Instr.fieldContents, hb, fieldImage]
      rw [extractLsb'_brrAfter_inside _ b baudMask 0 4 rfl hacc rfl (by decide), himage,
        extractLsb'_fieldImage c 0 4 (by decide), BitVec.setWidth_eq]
      rfl

/-- BRR.PARITY after `set_parity`: the code, or its old value for code 3. -/
theorem brrAfter_setParity_field (par : BitVec 2) (b : Word) :
    (brrAfter (.setParity par) b).extractLsb' 4 2 =
      (if par = 3#2 then none else some par).getD (b.extractLsb' 4 2) := by
  by_cases hp : par = 3#2
  · subst hp
    rw [brrAfter_of_refused _ b rfl]
    rfl
  · have hacc := accepted_of_run (.setParity par) _ (setParityPlan_ok par hp)
    rw [extractLsb'_brrAfter_inside _ b parityMask 4 2 rfl hacc rfl (by decide), if_neg hp]
    exact (extractLsb'_fieldImage par 4 2 (by decide)).trans (BitVec.setWidth_eq par)

/-- BRR.FLOW after `enable_hw_flow_control`: the bit. -/
theorem brrAfter_enableHwFlowControl_field (flow : BitVec 1) (b : Word) :
    (brrAfter (.enableHwFlowControl flow) b).extractLsb' 8 1 = flow := by
  rw [extractLsb'_brrAfter_inside (.enableHwFlowControl flow) b flowMask 8 1 rfl rfl rfl (by decide)]
  exact (extractLsb'_fieldImage flow 8 1 (by decide)).trans (BitVec.setWidth_eq flow)

/-- BRR.STOP after `set_stop_bits`: the count in four bits, or its old value for a count above 15. -/
theorem brrAfter_setStopBits_field (stop : BitVec 8) (b : Word) :
    (brrAfter (.setStopBits stop) b).extractLsb' 12 4 =
      ((if stop ≤ 15#8 then some stop else none).map (BitVec.setWidth 4)).getD (b.extractLsb' 12 4) := by
  by_cases hs : stop ≤ 15#8
  · have hacc := accepted_of_run (.setStopBits stop) _ (setStopBitsPlan_ok stop hs)
    rw [extractLsb'_brrAfter_inside _ b stopMask 12 4 rfl hacc rfl (by decide), if_pos hs]
    exact extractLsb'_fieldImage stop 12 4 (by decide)
  · have hacc := accepted_of_refuse (.setStopBits stop) _ (setStopBitsPlan_bad stop (BitVec.not_le.mp hs))
    rw [brrAfter_of_refused _ b hacc, if_neg hs]
    rfl

/-- From BRR `b` to BRR `c` each field takes the last accepted operand that a list of commands gives its setter, or keeps its
value, and the bits of no field keep theirs. -/
structure BrrTracks (b : Word) (is : List Instr) (c : Word) : Prop where
  unowned : c &&& 0xFFFF0EC0#32 = b &&& 0xFFFF0EC0#32
  baud : c.extractLsb' 0 4 = (lastBaud is).getD (b.extractLsb' 0 4)
  parity : c.extractLsb' 4 2 = (lastParity is).getD (b.extractLsb' 4 2)
  flow : c.extractLsb' 8 1 = (lastFlow is).getD (b.extractLsb' 8 1)
  stop : c.extractLsb' 12 4 = ((lastStop is).map (BitVec.setWidth 4)).getD (b.extractLsb' 12 4)

theorem brrTracks_nil (b : Word) : BrrTracks b [] b := ⟨rfl, rfl, rfl, rfl, rfl⟩

/-- A setter gives its field the operand when it accepts it, and keeps every other field. -/
theorem brrTracks_setter (i : Instr) (b : Word) (hi : i.isSetter = true) : BrrTracks b [i] (brrAfter i b) := by
  have unowned := brrAfter_and_unowned i b hi
  have keepsBaud := extractLsb'_brrAfter_outside i b baudMask 0 4 hi (by decide)
  have keepsParity := extractLsb'_brrAfter_outside i b parityMask 4 2 hi (by decide)
  have keepsFlow := extractLsb'_brrAfter_outside i b flowMask 8 1 hi (by decide)
  have keepsStop := extractLsb'_brrAfter_outside i b stopMask 12 4 hi (by decide)
  cases i with
  | setBaudRate baud =>
      exact ⟨unowned, brrAfter_setBaudRate_field baud b, keepsParity baudMask rfl (by decide),
        keepsFlow baudMask rfl (by decide), keepsStop baudMask rfl (by decide)⟩
  | setParity par =>
      exact ⟨unowned, keepsBaud parityMask rfl (by decide), brrAfter_setParity_field par b,
        keepsFlow parityMask rfl (by decide), keepsStop parityMask rfl (by decide)⟩
  | enableHwFlowControl flow =>
      exact ⟨unowned, keepsBaud flowMask rfl (by decide), keepsParity flowMask rfl (by decide),
        brrAfter_enableHwFlowControl_field flow b, keepsStop flowMask rfl (by decide)⟩
  | setStopBits stop =>
      exact ⟨unowned, keepsBaud stopMask rfl (by decide), keepsParity stopMask rfl (by decide),
        keepsFlow stopMask rfl (by decide), brrAfter_setStopBits_field stop b⟩
  | _ => cases hi

/-- So does every command but those that replace BRR whole. -/
theorem brrTracks_exec (i : Instr) (s t : State) (h : exec i s = .next t) (hi : i.replacesBrr = false) :
    BrrTracks s.regs.brr [i] t.regs.brr := by
  have hsetter (hset : i.isSetter = true) : BrrTracks s.regs.brr [i] t.regs.brr := by
    obtain ⟨r, hexec⟩ := exec_setter_brrAfter i hset
    cases (hexec s).symm.trans h
    exact brrTracks_setter i s.regs.brr hset
  have hkept (hbrr : i.mayWrite .brr = false) : t.regs.brr = s.regs.brr := exec_keeps_unwritten i s t .brr h hbrr
  cases i with
  | initUart _ _ _ _ => cases hi
  | read addr =>
      rw [hkept rfl]
      exact ⟨rfl, rfl, rfl, rfl, rfl⟩
  | write addr data =>
      rw [hkept hi]
      exact ⟨rfl, rfl, rfl, rfl, rfl⟩
  | _ => exact hsetter rfl

/-! ## The fields of BRR after a run -/

theorem lastBaud_cons (i : Instr) (is : List Instr) : lastBaud (i :: is) = (lastBaud is).or (lastBaud [i]) := by
  cases i <;> simp [lastBaud]

theorem lastParity_cons (i : Instr) (is : List Instr) : lastParity (i :: is) = (lastParity is).or (lastParity [i]) := by
  cases i <;> simp [lastParity]

theorem lastFlow_cons (i : Instr) (is : List Instr) : lastFlow (i :: is) = (lastFlow is).or (lastFlow [i]) := by
  cases i <;> simp [lastFlow]

theorem lastStop_cons (i : Instr) (is : List Instr) : lastStop (i :: is) = (lastStop is).or (lastStop [i]) := by
  cases i <;> simp [lastStop]

/-- What one command tracks and the commands after it track, all of them track. -/
theorem brrTracks_cons {b b' c : Word} {i : Instr} {is : List Instr} (h₁ : BrrTracks b [i] b') (h₂ : BrrTracks b' is c) :
    BrrTracks b (i :: is) c where
  unowned := h₂.unowned.trans h₁.unowned
  baud := by rw [h₂.baud, h₁.baud, lastBaud_cons i is, Option.getD_or]
  parity := by rw [h₂.parity, h₁.parity, lastParity_cons i is, Option.getD_or]
  flow := by rw [h₂.flow, h₁.flow, lastFlow_cons i is, Option.getD_or]
  stop := by rw [h₂.stop, h₁.stop, lastStop_cons i is, Option.map_or, Option.getD_or]

/-- Commands that do not replace BRR whole track its fields. -/
def TracksUnlessReplaced (b : RegBlock) (is : List Instr) (c : RegBlock) : Prop :=
  (∀ i ∈ is, i.replacesBrr = false) → BrrTracks b.brr is c.brr

theorem tracksUnlessReplaced_cons (i : Instr) (s t : State) (is : List Instr) (c : RegBlock) (h : exec i s = .next t)
    (hrest : TracksUnlessReplaced t.regs is c) : TracksUnlessReplaced s.regs (i :: is) c := by
  intro hall
  obtain ⟨hi, his⟩ := List.forall_mem_cons.mp hall
  exact brrTracks_cons (brrTracks_exec i s t h hi) (hrest his)

/-- Settles O23: every command tracks the fields, so a run over all the words presented does. -/
theorem brrHoldsTheLastOperands : Obligations.BrrHoldsTheLastOperands := by
  intro s hs
  obtain ⟨t, hrun, -, htracks⟩ := run_presented TracksUnlessReplaced (fun b _ => brrTracks_nil b.brr)
    tracksUnlessReplaced_cons s.commands [] s (List.append_nil _).symm
  obtain ⟨hunowned, hbaud, hparity, hflow, hstop⟩ := htracks hs
  exact ⟨t, hrun, hunowned, hbaud, hparity, hflow, hstop⟩

end Sys2Proof.Proofs
end

section
/-! A configured block stays legally configured: what a legal BRR is, that the setters keep it and `init_uart` makes it, and the
invariant of every step (70_reset_and_hazards.md R178; 10_state.md R25, R28, R31). -/

namespace Sys2Proof.Proofs

open Machine

/-! ## A legal BRR -/

/-- BRR holds a table code, a parity code with a meaning, and no bit outside its fields (10_state.md R25, R28, R31). -/
def LegalBrr (b : Word) : Prop :=
  b &&& 0xFFFF0EC0 = 0 ∧ b.extractLsb' 0 4 ≤ 8#4 ∧ b.extractLsb' 4 2 ≠ 3#2

theorem legalBrr_zero : LegalBrr 0 := by
  unfold LegalBrr
  decide

/-- The codes of the Baud Rate Table are at most 8 (10_state.md R27). -/
theorem baudCode_le (baud : BitVec 32) (c : BitVec 4) (h : baudCode baud = some c) : c ≤ 8#4 := by
  have hlisted : ∀ row ∈ baudTable, row.2 ≤ 8#4 := by simp [baudTable]
  exact hlisted (baud, c) ((baudCode_eq_some baud c).mp h)

/-- A setter keeps a legal BRR legal: an operand it accepts is a legal value of its field. -/
theorem legalBrr_brrAfter (i : Instr) (b : Word) (hi : i.isSetter = true) (h : LegalBrr b) : LegalBrr (brrAfter i b) := by
  obtain ⟨hunowned, hbaud, hparity⟩ := h
  have htracks := brrTracks_setter i b hi
  refine ⟨htracks.unowned.trans hunowned, ?_, ?_⟩
  · rw [htracks.baud]
    cases hlast : lastBaud [i] with
    | none => exact hbaud
    | some c =>
        cases i with
        | setBaudRate baud => exact baudCode_le baud c hlast
        | _ => cases hlast
  · rw [htracks.parity]
    cases hlast : lastParity [i] with
    | none => exact hparity
    | some par =>
        cases i with
        | setParity par' =>
            obtain ⟨hne, heq⟩ := Option.ite_none_left_eq_some.mp hlast
            cases heq
            exact hne
        | _ => cases hlast

/-- `init_uart` packs a legal BRR, as the four setters make it from zero. -/
theorem legalBrr_packBrr (baud : BitVec 32) (par : BitVec 2) (flow : BitVec 1) (stop : BitVec 8) (c : BitVec 4)
    (hbaud : baudCode baud = some c) (hpar : par ≠ 3#2) (hstop : stop ≤ 15#8) : LegalBrr (packBrr c par flow stop) := by
  rw [packBrr_eq_setters baud par flow stop c hbaud hpar hstop]
  have hsetBaud := legalBrr_brrAfter (.setBaudRate baud) 0 rfl legalBrr_zero
  have hsetParity := legalBrr_brrAfter (.setParity par) _ rfl hsetBaud
  have hsetFlow := legalBrr_brrAfter (.enableHwFlowControl flow) _ rfl hsetParity
  exact legalBrr_brrAfter (.setStopBits stop) _ rfl hsetFlow

/-! ## A legal configuration -/

/-- Bits just set read as set. -/
theorem or_and_self (x bits : Word) : (x ||| bits) &&& bits = bits := by
  apply BitVec.eq_of_getLsbD_eq
  intro k _
  cases hk : bits.getLsbD k <;> simp [hk]

/-- Bits just cleared read as clear. -/
theorem and_not_and_self (x bits : Word) : x &&& ~~~bits &&& bits = 0 := by
  rw [BitVec.and_assoc, BitVec.and_comm (~~~bits), BitVec.and_not_self]
  exact BitVec.and_zero

/-- A successful `init_uart` leaves a legal configuration on whatever the registers held (70_reset_and_hazards.md R175). -/
theorem legalConfiguration_of_init (s t : State) (baud : BitVec 32) (par : BitVec 2) (flow : BitVec 1) (stop : BitVec 8)
    (haccepted : (Instr.initUart baud par flow stop).accepted = true)
    (h : exec (.initUart baud par flow stop) s = .next t) : t.LegalConfiguration := by
  obtain ⟨c, hbaud, hpar, hstop⟩ := operands_of_accepted_initUart baud par flow stop haccepted
  cases (exec_initUart baud par flow stop c s hbaud hpar hstop).symm.trans h
  obtain ⟨hunowned, hcode, hparity⟩ := legalBrr_packBrr baud par flow stop c hbaud hpar hstop
  exact ⟨hunowned, hcode, hparity, or_and_self _ _, or_and_self _ _, and_not_and_self _ _, rfl, rfl⟩

/-- A setter keeps a legal configuration: it keeps BRR legal and touches no other register. -/
theorem legalConfiguration_setter (i : Instr) (s t : State) (hi : i.isSetter = true) (h : exec i s = .next t)
    (hs : s.LegalConfiguration) : t.LegalConfiguration := by
  obtain ⟨r, hexec⟩ := exec_setter_brrAfter i hi
  cases (hexec s).symm.trans h
  obtain ⟨hunowned, hcode, hparity, hothers⟩ := hs
  obtain ⟨hunowned', hcode', hparity'⟩ := legalBrr_brrAfter i s.regs.brr hi ⟨hunowned, hcode, hparity⟩
  exact ⟨hunowned', hcode', hparity', hothers⟩

/-- A `write` that cannot undo the encoder's work is refused or goes to the reserved word, of which a legal configuration says
nothing. -/
theorem legalConfiguration_write (addr : Addr) (data : Word) (s t : State) (hi : (Instr.write addr data).mayUndo = false)
    (h : exec (.write addr data) s = .next t) (hs : s.LegalConfiguration) : t.LegalConfiguration := by
  cases hreg : regAt addr with
  | none =>
      cases (exec_refused (.write addr data) _ s (writePlan_none addr data hreg)).1.symm.trans h
      exact hs
  | some r =>
      have hr : r = .rsvd0 := by simpa [Instr.mayUndo, hreg] using hi
      cases (exec_write_of_regAt addr data r s hreg).1.symm.trans h
      subst hr
      exact hs

/-- A command that is no accepted `init_uart` leaves `configured` as it is. -/
theorem exec_keeps_configured (i : Instr) (s t : State) (h : exec i s = .next t)
    (hi : i.isInit = false ∨ i.accepted = false) : t.configured = s.configured := by
  rcases exec_plan i s with ⟨e, -, hexec⟩ | ⟨as, hp, hexec⟩
  · cases hexec.symm.trans h
    rfl
  · cases hexec.symm.trans h
    have hinit : i.isInit = false := hi.resolve_right (by simp [accepted_of_run i as hp])
    simp [hinit]

/-- A command that cannot undo the encoder's work keeps a configured block's configuration legal. -/
theorem exec_keeps_legal (i : Instr) (s t : State) (h : exec i s = .next t) (hi : i.mayUndo = false)
    (hs : s.configured = true → s.LegalConfiguration) : t.configured = true → t.LegalConfiguration := by
  intro ht
  have hlegal (hno : i.isInit = false ∨ i.accepted = false) : s.LegalConfiguration :=
    hs ((exec_keeps_configured i s t h hno).symm.trans ht)
  cases i with
  | initUart baud par flow stop =>
      cases haccepted : (Instr.initUart baud par flow stop).accepted with
      | true => exact legalConfiguration_of_init s t baud par flow stop haccepted h
      | false =>
          obtain ⟨e, hp⟩ := refuse_of_not_accepted _ haccepted
          cases (exec_refused _ e s hp).1.symm.trans h
          exact hlegal (.inr haccepted)
  | read addr =>
      obtain ⟨t', hexec, hregs, -⟩ := readChangesNothing addr s
      cases hexec.symm.trans h
      rw [State.LegalConfiguration, hregs]
      exact hlegal (.inl rfl)
  | write addr data => exact legalConfiguration_write addr data s t hi h (hlegal (.inl rfl))
  | _ => exact legalConfiguration_setter _ s t rfl h (hlegal (.inl rfl))

/-! ## The invariant of every step (R178) -/

/-- Settles O49: an idle step and an illegal word change neither registers nor `configured`, and a command that is presented keeps
the configuration legal; the words left to present are among those that were. -/
theorem stepsKeepAConfiguredBlockLegal : Obligations.StepsKeepAConfiguredBlockLegal := by
  rintro s t ⟨hundo, hlegal⟩ h
  rcases step_cases s with ⟨hw, hstep⟩ | ⟨w, ws, i, hw, hd, hstep⟩ | ⟨w, ws, why, hw, hd, hstep⟩
  · cases hstep.symm.trans h
    exact ⟨hundo, hlegal⟩
  · rw [hw, commandsOf_cons_command w ws i hd] at hundo
    obtain ⟨hi, hrest⟩ := List.forall_mem_cons.mp hundo
    obtain ⟨u, hexec, hcommands⟩ := exec_completes i { s with commands := ws }
    cases (hstep.trans hexec).symm.trans h
    exact ⟨hcommands ▸ hrest, exec_keeps_legal i { s with commands := ws } t hexec hi hlegal⟩
  · rw [hw, commandsOf_cons_illegal w ws why hd] at hundo
    cases hstep.symm.trans h
    exact ⟨hundo, hlegal⟩

end Sys2Proof.Proofs
end
